-- ==== Sys2Proof/Word.lean ====
section
/-!
DEFINITION. The widths of the hubabuba core: 32-bit registers and data cells (spec/00_scope.md R4), 8-bit image bytes
(R7), 40-bit instruction words (R6) and 5-bit register indexes (spec/10_state.md R10, R15).
-/

namespace Sys2Proof

/-- A register's or a data cell's value: XLEN = 32 bits, unsigned (R4). -/
abbrev Word := BitVec 32

/-- One byte of the binary image (R7). -/
abbrev Byte := BitVec 8

/-- An instruction word: ILEN = 40 bits in 5 bytes (R6). -/
abbrev InstrWord := BitVec 40

/-- A register index: 5 bits for 32 registers, so every index names a register (R3, R15). -/
abbrev RegIdx := BitVec 5

end Sys2Proof
end

