-- ==== Sys2Proof/Config.lean ====
section
/-!
DEFINITION. The parameters the spec leaves to the machine and to the host of a run (spec/00_scope.md, parameter summary):
MEM_SIZE and STRICT. IMG_LEN is the length of the loaded image. The spec leaves no VALUE of the core open
(spec/93_implementation_defined.md: no behaviour of the core is `any value` or `stuck`), so there is no free value here.
-/

namespace Sys2Proof

/-- The parameters of a machine and of its run. They are plain data that State carries, so that a statement about every
state holds for every size of the data memory (log entry 2). No step writes them. -/
structure Config where
  /-- MEM_SIZE: how many 32-bit cells the data memory has (R5). -/
  memSize : Nat
  /-- STRICT: only the host's exit status depends on it (R8, R139). -/
  strict : Bool
  deriving DecidableEq, Repr

/-- The default capacity, 1024 cells (R5). STRICT off is a DESIGN CHOICE: the spec gives no default (log entry 2). -/
def Config.default : Config := { memSize := 1024, strict := false }

/-- The legal range of MEM_SIZE: 1 to 2^32 inclusive (R5). -/
abbrev Config.Legal (c : Config) : Prop := 1 ≤ c.memSize ∧ c.memSize ≤ 2 ^ 32

end Sys2Proof
end

