-- ==== Sys2Proof/Syntax.lean ====
section
/-!
DEFINITION. The four instructions (spec/00_scope.md R1), once as decoded (every field exactly as wide as its format gives
it, spec/30_encoding.md R53 to R56) and once as the encoder and the assembler take them (fields of any size, R59).
-/

namespace Sys2Proof

/-- The four instruction kinds (R1, R52). -/
inductive Kind where
  | load
  | write
  | read
  | bitrev
  deriving DecidableEq, Repr

/-- A decoded instruction, one constructor per row of spec/opcode_table.json. The fields keep the spec's letters b, c, d
and its order, which for READ is not the assembler's operand order (R68). -/
inductive Instr where
  /-- LOAD (R53, R100): destination register b, unsigned immediate c. -/
  | load (b : RegIdx) (c : BitVec 21)
  /-- WRITE (R54, R110): source register b, data address c. -/
  | write (b : RegIdx) (c : BitVec 27)
  /-- READ (R55, R112): offset b, base register c, destination register d. -/
  | read (b : BitVec 13) (c : RegIdx) (d : RegIdx)
  /-- BITREV (R56, R121): source register b, register c that holds the destination address. -/
  | bitrev (b : RegIdx) (c : RegIdx)
  deriving DecidableEq, Repr

/-- A kind with field values of any size, as `encode(kind, fields)` takes them (R59) and as the assembler reads them from
source text (R68, R70). A field the kind does not use is 0 (R90). -/
structure RawInstr where
  kind : Kind
  b : Nat
  c : Nat
  d : Nat
  deriving DecidableEq, Repr

/-- The kind of a decoded instruction. -/
def Instr.kind : Instr → Kind
  | .load _ _ => .load
  | .write _ _ => .write
  | .read _ _ _ => .read
  | .bitrev _ _ => .bitrev

/-- The field values of a decoded instruction as naturals (R60: every field is unsigned). -/
def Instr.toRaw : Instr → RawInstr
  | .load b c => ⟨.load, b.toNat, c.toNat, 0⟩
  | .write b c => ⟨.write, b.toNat, c.toNat, 0⟩
  | .read b c d => ⟨.read, b.toNat, c.toNat, d.toNat⟩
  | .bitrev b c => ⟨.bitrev, b.toNat, c.toNat, 0⟩

end Sys2Proof
end

