-- ==== Sys2Proof/WellFormed.lean ====
section
/-!
DEFINITION. Which field values are legal without masking: each below 2^(its width) (spec/30_encoding.md R53 to R56, R60),
and each field the kind does not have 0 (spec/40_fetch_decode_execute.md R90). A decoded `Instr` is well formed by its
types; the check is about `RawInstr`, whose fields the encoder masks (R59).
-/

namespace Sys2Proof

/-- Width of field b: a 5-bit register index, but READ's 13-bit offset (R53 to R56). -/
def Kind.bWidth : Kind → Nat
  | .load => 5
  | .write => 5
  | .read => 13
  | .bitrev => 5

/-- Width of field c: 21-bit immediate, 27-bit address, or a 5-bit register index (R53 to R56). -/
def Kind.cWidth : Kind → Nat
  | .load => 21
  | .write => 27
  | .read => 5
  | .bitrev => 5

/-- Width of field d: READ's 5-bit destination register; the other kinds have no field d (R53 to R56). -/
def Kind.dWidth : Kind → Nat
  | .load => 0
  | .write => 0
  | .read => 5
  | .bitrev => 0

/-- Field b fits its width. -/
def RawInstr.bFits (r : RawInstr) : Bool := r.b < 2 ^ r.kind.bWidth

/-- Field c fits its width. -/
def RawInstr.cFits (r : RawInstr) : Bool := r.c < 2 ^ r.kind.cWidth

/-- Field d fits its width; a kind without a field d has 0 there. -/
def RawInstr.dFits (r : RawInstr) : Bool := r.d < 2 ^ r.kind.dWidth

/-- Every field is within its declared width, so that encoding masks nothing away. -/
def RawInstr.wellFormed (r : RawInstr) : Bool := r.bFits && r.cFits && r.dFits

end Sys2Proof
end

