-- ==== Sys2Proof/Decode.lean ====
section
/-!
DEFINITION. The instruction codec (spec/30_encoding.md): `decode` on all 2^40 words (R58), the byte order of a word
(spec/20_memory.md R36, R50), and after them the encoder (R59).
-/

namespace Sys2Proof

/-- What the decoder answers: an instruction, or the rejection UnknownOpcode with the word's tag (R58, R63). -/
inductive DecodeResult where
  | instr (i : Instr)
  | unknownOpcode (tag : BitVec 5)
  deriving DecidableEq, Repr

/-- Bits [4:0] of every word are its opcode tag (R51). -/
def tagOf (w : InstrWord) : BitVec 5 := w.extractLsb' 0 5

/-- `decode(w)` (R58). Bits no field covers are ignored (R57, log entry 7). -/
def decode (w : InstrWord) : DecodeResult :=
  if tagOf w = 15#5 then .instr (.load (w.extractLsb' 5 5) (w.extractLsb' 10 21))
  else if tagOf w = 8#5 then .instr (.write (w.extractLsb' 5 5) (w.extractLsb' 10 27))
  else if tagOf w = 17#5 then .instr (.read (w.extractLsb' 5 13) (w.extractLsb' 18 5) (w.extractLsb' 23 5))
  else if tagOf w = 25#5 then .instr (.bitrev (w.extractLsb' 5 5) (w.extractLsb' 10 5))
  else .unknownOpcode (tagOf w)

/-- Five image bytes, the first the least significant (R36). PRESUMED by the spec itself: which byte of a
little-endian word comes first is marked there as general knowledge (log entry 6). -/
def wordOfBytes (b0 b1 b2 b3 b4 : Byte) : InstrWord :=
  BitVec.ofNat 40 (b0.toNat + 2 ^ 8 * b1.toNat + 2 ^ 16 * b2.toNat + 2 ^ 24 * b3.toNat + 2 ^ 32 * b4.toNat)

/-- The word at the head of a byte string and the bytes after it; `none` where fewer than 5 bytes remain (R36, R81). -/
def takeWord : List Byte → Option (InstrWord × List Byte)
  | b0 :: b1 :: b2 :: b3 :: b4 :: rest => some (wordOfBytes b0 b1 b2 b3 b4, rest)
  | _ => none

/-- What decoding the head of a byte string answers. -/
inductive BytesResult where
  | instr (i : Instr) (rest : List Byte)
  | unknownOpcode (tag : BitVec 5)
  | partialWord
  deriving DecidableEq, Repr

/-- The decoder on bytes: total, rejecting a trailing partial word (R81) and an unknown tag (R58) by name. -/
def decodeBytes (bytes : List Byte) : BytesResult :=
  match takeWord bytes with
  | none => .partialWord
  | some (w, rest) =>
    match decode w with
    | .instr i => .instr i rest
    | .unknownOpcode t => .unknownOpcode t

/-- The opcode tags: LOAD 15, WRITE 8, READ 17, BITREV 25 (R52). -/
def Kind.tag : Kind → BitVec 5
  | .load => 15#5
  | .write => 8#5
  | .read => 17#5
  | .bitrev => 25#5

/-- `mask_n(v) = v mod 2^n` (spec/00_scope.md, section 4). -/
def maskN (n v : Nat) : Nat := v % 2 ^ n

/-- `encode(kind, fields)` (R59): each field masked to its width, then packed; the unused bits come out 0. -/
def encodeFields (r : RawInstr) : InstrWord :=
  match r.kind with
  | .load => BitVec.ofNat 40 (15 + 2 ^ 5 * maskN 5 r.b + 2 ^ 10 * maskN 21 r.c)
  | .write => BitVec.ofNat 40 (8 + 2 ^ 5 * maskN 5 r.b + 2 ^ 10 * maskN 27 r.c)
  | .read => BitVec.ofNat 40 (17 + 2 ^ 5 * maskN 13 r.b + 2 ^ 18 * maskN 5 r.c + 2 ^ 23 * maskN 5 r.d)
  | .bitrev => BitVec.ofNat 40 (25 + 2 ^ 5 * maskN 5 r.b + 2 ^ 10 * maskN 5 r.c)

/-- The instruction whose fields are the given ones masked to their widths (R59, R61). -/
def RawInstr.toInstr (r : RawInstr) : Instr :=
  match r.kind with
  | .load => .load (BitVec.ofNat 5 r.b) (BitVec.ofNat 21 r.c)
  | .write => .write (BitVec.ofNat 5 r.b) (BitVec.ofNat 27 r.c)
  | .read => .read (BitVec.ofNat 13 r.b) (BitVec.ofNat 5 r.c) (BitVec.ofNat 5 r.d)
  | .bitrev => .bitrev (BitVec.ofNat 5 r.b) (BitVec.ofNat 5 r.c)

/-- The word of a decoded instruction. -/
def encode (i : Instr) : InstrWord := encodeFields i.toRaw

/-- The bits of a word that no field of its kind covers (R57): [39:31] of L, [39:37] of W, [39:28] of R, [39:15] of B. -/
def Kind.unusedMask : Kind → InstrWord
  | .load => BitVec.ofNat 40 (2 ^ 40 - 2 ^ 31)
  | .write => BitVec.ofNat 40 (2 ^ 40 - 2 ^ 37)
  | .read => BitVec.ofNat 40 (2 ^ 40 - 2 ^ 28)
  | .bitrev => BitVec.ofNat 40 (2 ^ 40 - 2 ^ 15)

/-- A word's five bytes in image order: byte k holds bits [8k+7:8k] (R50, R59). -/
def bytesOfWord (w : InstrWord) : List Byte :=
  [w.extractLsb' 0 8, w.extractLsb' 8 8, w.extractLsb' 16 8, w.extractLsb' 24 8, w.extractLsb' 32 8]

/-- The instruction the decoder reads from `nbits` bits of value `w`, laid out as the image holds them. The host's
question for a row of the opcode table; bits above `nbits` are 0. -/
def decodeTableWord (nbits w : Nat) : Option Instr :=
  match decodeBytes (bytesOfWord (BitVec.ofNat 40 (maskN nbits w))) with
  | .instr i _ => some i
  | .unknownOpcode _ => none
  | .partialWord => none

end Sys2Proof
end

