-- ==== Sys2Proof/Machine/State.lean ====
section
/-!
DEFINITION. The architectural state of the hubabuba core (spec/10_state.md, state summary), the reasons a step or the
host's interface can stop, and the state right after reset (spec/70_reset_and_hazards.md R150).
-/

namespace Sys2Proof.Machine

/-- The run status (R20). Both halted states are final and neither is a fault (R86). -/
inductive RunStatus where
  /-- RUNNING: the core can take a step. -/
  | running
  /-- HALTED_COMPLETE: fewer than 5 image bytes remain at pc. -/
  | haltedComplete
  /-- HALTED_UNKNOWN_OPCODE: the word at pc has a tag that is not one of the four. -/
  | haltedUnknownOpcode
  deriving DecidableEq, Repr

/-- The core has NO fault: an unknown opcode is a terminal status (R130, R86), every other condition has a defined
outcome that never stops or faults the run (R131), and a register-index fault must not be added (R15). So nothing raises
one, and the type is empty (log entry 4; safe). -/
inductive Fault where
  deriving DecidableEq, Repr

/-- Why something is refused. No instruction and no step raises any of these. -/
inductive Refusal where
  /-- An instruction without a meaning. Nothing raises it: all four have one. Safe. -/
  | notModelled (mnemonic : String)
  /-- Raised by `boot` alone: a provided start state that does not give exactly 32 register values and MEM_SIZE cell
  values, each below 2^32 (R24, log entry 11). Safe: the host's input is turned away before any run. -/
  | illegalPreset
  /-- Raised by `boot` alone: a MEM_SIZE outside 1 .. 2^32 (R5, log entry 2). Safe, as above. -/
  | illegalMemSize
  /-- Raised by `executeImage` alone, and never reached: a run that has not halted within IMG_LEN / 5 + 1 steps (R87
  says there is none). Safe. -/
  | runNotHalted
  deriving DecidableEq, Repr

/-- The data memory: the cells that do not hold 0, as (cell index, value), indexes strictly rising (log entry 1). An
unlisted cell reads as 0, the reset value of every cell (R22). -/
abbrev Memory := List (Nat × Word)

/-- The canonical form from index `lo` on: indexes strictly rising, no value 0. -/
def Memory.wfFrom (lo : Nat) : Memory → Bool
  | [] => true
  | (a, v) :: m => decide (lo ≤ a) && v != 0#32 && Memory.wfFrom (a + 1) m

/-- The canonical form of a memory: equal contents are then equal data. -/
def Memory.wf (m : Memory) : Bool := Memory.wfFrom 0 m

/-- Every listed cell has an index below `n`. -/
def Memory.below (n : Nat) (m : Memory) : Bool := m.all fun p => decide (p.1 < n)

/-- Everything the spec gives the machine (spec/10_state.md, state summary), and its parameters (log entry 2). -/
structure State where
  /-- x[0] .. x[31] (R10); none is hard-wired (R11). -/
  regs : Vector Word 32
  /-- The byte offset in the image of the current instruction, an unbounded natural (R16). -/
  pc : Nat
  /-- The run status (R20). -/
  status : RunStatus
  /-- The data memory, `cfg.memSize` cells of 32 bits (R22). -/
  mem : Memory
  /-- The binary image, IMG_LEN bytes, which the core only reads (R23). -/
  image : List Byte
  /-- MEM_SIZE (R5) and STRICT (R8); no step writes them. -/
  cfg : Config
  deriving DecidableEq, Repr

/-- The machine right after reset (R150): registers 0 (R19), cells 0 (R22), pc 0 (R18), RUNNING (R20). The image is
whatever the host has loaded; here it has loaded nothing, into a machine of the default size (log entry 5). -/
def State.reset : State where
  regs := Vector.replicate 32 0#32
  pc := 0
  status := .running
  mem := []
  image := []
  cfg := Config.default

end Sys2Proof.Machine
end

