-- ==== Sys2Proof/Machine/Ops.lean ====
section
/-!
DEFINITION. The named operations over registers, data memory, image, pc and status. The load_store_unit's primitives are
spec/20_memory.md R33 and R34, the fetch R36, the alu's two functions spec/40_fetch_decode_execute.md R92, the
one exceptional event spec/60_exceptions.md R130, reset spec/70_reset_and_hazards.md R150.
-/

namespace Sys2Proof.Machine

/-- `x[i]` (R10). No register is hard-wired (R11). -/
def State.getReg (s : State) (i : RegIdx) : Word := s.regs[i.toNat]'i.isLt

/-- `x[i] <- v` (R10). -/
def State.setReg (s : State) (i : RegIdx) (v : Word) : State :=
  { s with regs := s.regs.set i.toNat v i.isLt }

/-- The value of a listed cell, and 0 for an unlisted one (R22). -/
def Memory.read : Memory → Nat → Word
  | [], _ => 0#32
  | (k, v) :: m, a => if k = a then v else Memory.read m a

/-- The cells but the one at `a`. -/
def Memory.erase : Memory → Nat → Memory
  | [], _ => []
  | (k, v) :: m, a => if k = a then Memory.erase m a else (k, v) :: Memory.erase m a

/-- List `a` with value `v` before the first higher index. -/
def Memory.insert : Memory → Nat → Word → Memory
  | [], a, v => [(a, v)]
  | (k, w) :: m, a, v => if a < k then (a, v) :: (k, w) :: m else (k, w) :: Memory.insert m a v

/-- Set the cell at `a`, keeping the canonical form: the value 0 is what an unlisted cell reads as. -/
def Memory.write (m : Memory) (a : Nat) (v : Word) : Memory :=
  if v = 0#32 then m.erase a else (m.erase a).insert a v

/-- In bounds exactly when a < MEM_SIZE (R32). -/
def State.inBounds (s : State) (a : Nat) : Bool := decide (a < s.cfg.memSize)

/-- `MemRead(a, 1)` (R33): out of bounds gives 0. -/
def State.memRead (s : State) (a : Nat) : Word := if s.inBounds a then s.mem.read a else 0#32

/-- `MemWrite(a, 1, v)` (R34): out of bounds changes nothing. -/
def State.memWrite (s : State) (a : Nat) (v : Word) : State :=
  if s.inBounds a then { s with mem := s.mem.write a v } else s

/-- `Fetch(pc)` (R36): the word in image bytes pc .. pc+4; `none` where fewer than 5 remain (R81). -/
def State.fetch (s : State) : Option InstrWord := (takeWord (s.image.drop s.pc)).map Prod.fst

/-- `pc <- pc + 5`, after the effect of every executed instruction (R85). -/
def State.advancePc (s : State) : State := { s with pc := s.pc + 5 }

/-- `halt(h)`: status <- h and nothing else (R86). -/
def State.halt (s : State) (h : RunStatus) : State := { s with status := h }

/-- `raise UnknownOpcode(pc)` (R130), the one exceptional event: the status records it, pc stays at the rejected word, no
register or cell is written, nothing is saved and there is no handler to enter (R134). -/
def State.raiseUnknownOpcode (s : State) : State := s.halt .haltedUnknownOpcode

/-- Reset (R150), the only way out of a halted state (R135): there is no return from an exception. The image and the
parameters are the host's and stay. -/
def State.applyReset (s : State) : State :=
  { s with regs := Vector.replicate 32 0#32, pc := 0, status := .running, mem := [] }

/-- ADDR_ADD (R92, R111): the exact sum of a 32-bit base and a 13-bit offset, never reduced (log entry 8). -/
def addrAdd (base : Word) (off : BitVec 13) : Nat := base.toNat + off.toNat

/-- `bit_reverse32(v)` (R120): v reduced to 32 bits, then bit i of the result is bit 31 - i. -/
def bitReverse32 (v : Nat) : Word :=
  let u := BitVec.ofNat 32 v
  BitVec.ofFnLE fun i : Fin 32 => u.getLsbD (31 - i)

/-- The state with the word `w` in the image at pc, the image lengthened with zero bytes where it is too short, and RUNNING:
the host's load (R152) of one instruction, used only to place an instruction to be tried (log entry 5). -/
def State.placeWord (s : State) (w : InstrWord) : State :=
  { s with
    status := .running
    image := s.image.take s.pc ++ List.replicate (s.pc - s.image.length) 0#8 ++ bytesOfWord w
      ++ s.image.drop (s.pc + 5) }

end Sys2Proof.Machine
end

