-- ==== Sys2Proof/Machine/Operands.lean ====
section
/-!
DEFINITION. The operand forms: every immediate and address field is unsigned, zero-extended and used as it is
(spec/30_encoding.md R60), and a data address is formed in three ways (spec/20_memory.md R31).
-/

namespace Sys2Proof.Machine

/-- LOAD's operand: `zext_32(c)` of the 21-bit immediate (R100). -/
def immOperand (c : BitVec 21) : Word := c.setWidth 32

/-- WRITE's address: the 27-bit field itself (R110). -/
def absAddr (c : BitVec 27) : Nat := c.toNat

/-- READ's address: `x[c] + b`, exact (R111). -/
def baseOffAddr (s : State) (c : RegIdx) (b : BitVec 13) : Nat := addrAdd (s.getReg c) b

/-- BITREV's address: the value of x[c] (R121). -/
def regAddr (s : State) (c : RegIdx) : Nat := (s.getReg c).toNat

end Sys2Proof.Machine
end

