-- ==== Sys2Proof/Machine/BitReverse.lean ====
section
/-!
DEFINITION. BITREV (spec/43_bit_reverse.md).
-/

namespace Sys2Proof.Machine

/-- BITREV (R121): `MemWrite(x[c], 1, bit_reverse32(x[b]))`; no register receives the result. -/
def execBitrev (b c : RegIdx) (s : State) : Host.Outcome State Fault Refusal :=
  .next (s.memWrite (regAddr s c) (bitReverse32 (s.getReg b).toNat)).advancePc

end Sys2Proof.Machine
end

