-- ==== Sys2Proof/Machine/LoadImmediate.lean ====
section
/-!
DEFINITION. LOAD (spec/41_load_immediate.md). The pc advance of R85 ends every instruction.
-/

namespace Sys2Proof.Machine

/-- LOAD (R100): `x[b] <- zext_32(c)`. -/
def execLoad (b : RegIdx) (c : BitVec 21) (s : State) : Host.Outcome State Fault Refusal :=
  .next (s.setReg b (immOperand c)).advancePc

end Sys2Proof.Machine
end

