-- ==== Sys2Proof/Machine/MemoryAccess.lean ====
section
/-!
DEFINITION. WRITE and READ (spec/42_memory_access.md). Registers are read from the state at the start (R9).
-/

namespace Sys2Proof.Machine

/-- WRITE (R110): `MemWrite(c, 1, x[b])`. -/
def execWrite (b : RegIdx) (c : BitVec 27) (s : State) : Host.Outcome State Fault Refusal :=
  .next (s.memWrite (absAddr c) (s.getReg b)).advancePc

/-- READ (R112): `x[d] <- MemRead(x[c] + b, 1)`; with d = c the base is the old value (R9). -/
def execRead (b : BitVec 13) (c d : RegIdx) (s : State) : Host.Outcome State Fault Refusal :=
  .next (s.setReg d (s.memRead (baseOffAddr s c b))).advancePc

end Sys2Proof.Machine
end

