-- ==== Sys2Proof/Machine/Dispatch.lean ====
section
/-!
DEFINITION. The dispatch of spec/40_fetch_decode_execute.md R84: exhaustive over the four kinds.
-/

namespace Sys2Proof.Machine

/-- The effect of the decoded kind, and only that effect (R84), with the pc advance (R85). -/
def exec (i : Instr) (s : State) : Host.Outcome State Fault Refusal :=
  match i with
  | .load b c => Sys2Proof.Machine.execLoad b c s
  | .write b c => Sys2Proof.Machine.execWrite b c s
  | .read b c d => Sys2Proof.Machine.execRead b c d s
  | .bitrev b c => Sys2Proof.Machine.execBitrev b c s

end Sys2Proof.Machine
end

