-- ==== Sys2Proof/Machine/Loop.lean ====
section
/-!
DEFINITION. One turn of the fetch-decode-execute loop (spec/40_fetch_decode_execute.md section 1), in the order of
spec/60_exceptions.md R133: end of image, unknown tag, execution.
-/

namespace Sys2Proof.Machine

/-- The step of a RUNNING core (R81 to R85). -/
def runningStep (s : State) : Host.Outcome State Fault Refusal :=
  match s.fetch with
  | none => .next (s.halt .haltedComplete)
  | some w =>
    match decode w with
    | .instr i => exec i s
    | .unknownOpcode _ => .next s.raiseUnknownOpcode

/-- A step is taken only while RUNNING (R80). A halted core stays as it is (R86): the model's step answers the same
state (log entry 3). -/
def loopStep (s : State) : Host.Outcome State Fault Refusal :=
  match s.status with
  | .running => runningStep s
  | .haltedComplete => .next s
  | .haltedUnknownOpcode => .next s

end Sys2Proof.Machine
end

