-- ==== Sys2Proof/Machine/Step.lean ====
section
/-!
DEFINITION. The step under its fixed name, and the placing of one instruction where the step fetches.
-/

namespace Sys2Proof.Machine

/-- One step of the core (spec/40_fetch_decode_execute.md, section 1). -/
def step (s : State) : Host.Outcome State Fault Refusal := loopStep s

/-- `s` with the instruction of `nbits` bits `w` (bits above them 0) in the image at pc, RUNNING (log entry 5). -/
def State.withFetchWord (s : State) (nbits w : Nat) : State := s.placeWord (BitVec.ofNat 40 (maskN nbits w))

end Sys2Proof.Machine
end

