-- ==== Sys2Proof/Machine/Assembler.lean ====
section
/-!
DEFINITION. The assembler's source format (spec/30_encoding.md R65 to R74) as functions on characters. The assembler is
software around the core; its file handling and printing are out of scope (spec/00_scope.md), its syntax and its mapping
of operands to fields are here.
-/

namespace Sys2Proof.Machine

/-- Whitespace. DESIGN CHOICE (log entry 13): the spec does not list the characters; these are the ASCII ones. -/
def isSpace (c : Char) : Bool :=
  c == ' ' || c == '\t' || c == '\n' || c == '\r' || c.toNat == 11 || c.toNat == 12

/-- A token separator: whitespace or a comma (R66). -/
def isSeparator (c : Char) : Bool := isSpace c || c == ','

/-- A line without leading and trailing whitespace (R65). -/
def stripLine (l : List Char) : List Char := ((l.dropWhile isSpace).reverse.dropWhile isSpace).reverse

/-- The tokens of a line: runs of separators count as one, and no token is empty (R66). `cur` is the token being read,
last character first. -/
def tokensFrom (cur : List Char) : List Char → List (List Char)
  | [] => if cur.isEmpty then [] else [cur.reverse]
  | c :: cs =>
    if isSeparator c then
      if cur.isEmpty then tokensFrom [] cs else cur.reverse :: tokensFrom [] cs
    else tokensFrom (c :: cur) cs

/-- The tokens of a whole line (R66). -/
def tokens (l : List Char) : List (List Char) := tokensFrom [] l

/-- The kind a mnemonic names, compared without regard to case (R67; ASCII letters only, log entry 13). -/
def kindOfMnemonic (tok : List Char) : Option Kind :=
  let u := tok.map Char.toUpper
  if u = "LOAD".toList then some .load
  else if u = "WRITE".toList then some .write
  else if u = "READ".toList then some .read
  else if u = "BITREV".toList then some .bitrev
  else none

/-- The value of a digit of a base up to 10. -/
def digitValue (base : Nat) (c : Char) : Option Nat :=
  if 48 ≤ c.toNat ∧ c.toNat < 48 + base then some (c.toNat - 48) else none

/-- The value of a string of digits, on from `acc`; `none` at a character that is no digit. -/
def digitsValue (base acc : Nat) : List Char → Option Nat
  | [] => some acc
  | c :: cs =>
    match digitValue base c with
    | some d => digitsValue base (acc * base + d) cs
    | none => none

/-- A numeral: one or more digits. -/
def numeralValue (base : Nat) (ds : List Char) : Option Nat := if ds.isEmpty then none else digitsValue base 0 ds

/-- A numeric literal (R69): base 10, or base 2 after `0b` or `0B`; no sign. -/
def literalValue : List Char → Option Nat
  | '0' :: 'b' :: ds => numeralValue 2 ds
  | '0' :: 'B' :: ds => numeralValue 2 ds
  | ds => numeralValue 10 ds

/-- What a source line yields. -/
inductive LineResult where
  /-- An empty line or a comment (R65). -/
  | nothing
  /-- An instruction, its operands not yet masked (R68, R70). -/
  | instr (r : RawInstr)
  /-- A MalformedInstruction: bad mnemonic, wrong operand count, or a non-numeric operand (R72). -/
  | malformed
  deriving DecidableEq, Repr

/-- The operands in source order, mapped onto fields; READ's are reordered (R68). -/
def mapOperands : Kind → List Nat → LineResult
  | .load, [rd, imm] => .instr ⟨.load, rd, imm, 0⟩
  | .write, [rs, addr] => .instr ⟨.write, rs, addr, 0⟩
  | .read, [rd, rbase, offset] => .instr ⟨.read, offset, rbase, rd⟩
  | .bitrev, [rs, raddr] => .instr ⟨.bitrev, rs, raddr, 0⟩
  | _, _ => .malformed

/-- The values of the operands, if every one is a numeric literal (R69). -/
def operandValues : List (List Char) → Option (List Nat)
  | [] => some []
  | t :: ts =>
    match literalValue t, operandValues ts with
    | some v, some vs => some (v :: vs)
    | _, _ => none

/-- A line's tokens: the first is the mnemonic (R66, R67). A line of separators only has none and is malformed (DEDUCED:
R72's bad mnemonic, log entry 14). -/
def parseTokens : List (List Char) → LineResult
  | [] => .malformed
  | mnemonic :: operands =>
    match kindOfMnemonic mnemonic, operandValues operands with
    | some k, some vs => mapOperands k vs
    | _, _ => .malformed

/-- One source line (R65, R66). Only a `;` that comes first makes a comment. -/
def assembleLine (line : List Char) : LineResult :=
  match stripLine line with
  | [] => .nothing
  | c :: cs => if c = ';' then .nothing else parseTokens (tokens (c :: cs))

/-- The lines of a text, split at the newline character. `cur` is the line being read, last character first. -/
def linesFrom (cur : List Char) : List Char → List (List Char)
  | [] => [cur.reverse]
  | c :: cs => if c = '\n' then cur.reverse :: linesFrom [] cs else linesFrom (c :: cur) cs

/-- The source lines of a text (R65). -/
def sourceLines (text : List Char) : List (List Char) := linesFrom [] text

/-- The words of the lines that assembled, in source-line order (R71). -/
def wordsOf : List LineResult → List InstrWord
  | [] => []
  | .instr r :: ls => encodeFields r :: wordsOf ls
  | .nothing :: ls => wordsOf ls
  | .malformed :: ls => wordsOf ls

/-- The numbers of the lines that failed, the first line being number `n` (R72). -/
def failedLines (n : Nat) : List LineResult → List Nat
  | [] => []
  | .malformed :: ls => n :: failedLines (n + 1) ls
  | .instr _ :: ls => failedLines (n + 1) ls
  | .nothing :: ls => failedLines (n + 1) ls

/-- The image of a list of words: their bytes, with no header, padding or terminator (R71). -/
def imageOfWords (ws : List InstrWord) : List Byte := ws.flatMap bytesOfWord

/-- What assembling a text yields. -/
structure Assembly where
  /-- The binary image (R71). -/
  image : List Byte
  /-- The 1-based numbers of the malformed lines (R72). -/
  failed : List Nat
  /-- What the diagnostic mode prints for each emitted instruction: its word and its bytes in order (R74). -/
  diagnostics : List (InstrWord × List Byte)
  deriving DecidableEq, Repr

/-- Assemble a text: an error on one line does not stop the pass (R72). -/
def assemble (text : List Char) : Assembly :=
  let rs := (sourceLines text).map assembleLine
  { image := imageOfWords (wordsOf rs)
    failed := failedLines 1 rs
    diagnostics := (wordsOf rs).map fun w => (w, bytesOfWord w) }

/-- The assembly is reported as failed when any line failed (R72); the tool's exit status is then nonzero (R139). -/
def Assembly.isFailed (a : Assembly) : Bool := !a.failed.isEmpty

end Sys2Proof.Machine
end

