-- ==== Sys2Proof/Machine/Flags.lean ====
section
/-!
DEFINITION. The core has no flags, condition codes or predicates (spec/10_state.md R21), so no instruction computes any.
The one condition the loop tests beside the bounds check is the program counter's `more` signal
(spec/40_fetch_decode_execute.md R94); it and the incrementer's output stand here.
-/

namespace Sys2Proof.Machine

/-- `more = (pc + 5 <= IMG_LEN)`: a whole word remains at pc (R81, R94). -/
def State.more (s : State) : Bool := decide (s.pc + 5 ≤ s.image.length)

/-- `next = pc + 5` (R94). -/
def State.nextPc (s : State) : Nat := s.pc + 5

end Sys2Proof.Machine
end

