-- ==== Sys2Proof/Machine/Datapath.lean ====
section
/-!
DEFINITION. The block's six parts joined by their ports (spec/40_fetch_decode_execute.md R90 to R94): a second way to take
a step, which adds no behaviour to R80 to R89. A port a kind does not use is `none` here (the `-` and NONE of the
tables), so no value is chosen for it.
-/

namespace Sys2Proof.Machine

/-- The `kind` output of the decode port (R90). -/
inductive PortKind where
  | load
  | write
  | read
  | bitrev
  | unknown
  deriving DecidableEq, Repr

/-- The record `{kind, b, c, d}` of the decode port, each field as wide as its widest use; a field the kind does not use
reads 0 (R90). -/
structure DecodeRecord where
  kind : PortKind
  b : BitVec 13
  c : BitVec 27
  d : BitVec 5
  deriving DecidableEq, Repr

/-- The codec's decode port, combinational (R90). -/
def codecDecode (w : InstrWord) : DecodeRecord :=
  let t := w.extractLsb' 0 5
  if t = 15#5 then ⟨.load, (w.extractLsb' 5 5).setWidth 13, (w.extractLsb' 10 21).setWidth 27, 0#5⟩
  else if t = 8#5 then ⟨.write, (w.extractLsb' 5 5).setWidth 13, w.extractLsb' 10 27, 0#5⟩
  else if t = 17#5 then ⟨.read, w.extractLsb' 5 13, (w.extractLsb' 18 5).setWidth 27, w.extractLsb' 23 5⟩
  else if t = 25#5 then ⟨.bitrev, (w.extractLsb' 5 5).setWidth 13, (w.extractLsb' 10 5).setWidth 27, 0#5⟩
  else ⟨.unknown, 0#13, 0#27, 0#5⟩

/-- The codec's encode port, for the assembler; the core never uses it (R90). -/
def codecEncode (kind : Kind) (b c d : Nat) : InstrWord := encodeFields ⟨kind, b, c, d⟩

/-- The index on read port A: b for WRITE and BITREV, c for READ (R91). -/
def portAIndex (r : DecodeRecord) : Option RegIdx :=
  match r.kind with
  | .load => none
  | .write => some (r.b.setWidth 5)
  | .read => some (r.c.setWidth 5)
  | .bitrev => some (r.b.setWidth 5)
  | .unknown => none

/-- The index on read port B: c for BITREV (R91). -/
def portBIndex (r : DecodeRecord) : Option RegIdx :=
  match r.kind with
  | .load => none
  | .write => none
  | .read => none
  | .bitrev => some (r.c.setWidth 5)
  | .unknown => none

/-- A read port of the register file: x[index] (R91). -/
def regReadPort (s : State) (index : Option RegIdx) : Option Word := index.map s.getReg

/-- The write port of the register file: `some (rw, wd)` is we = 1, `none` is we = 0 (R91). -/
def regWritePort (s : State) : Option (RegIdx × Word) → State
  | some (rw, wd) => s.setReg rw wd
  | none => s

/-- The alu's ADDR_ADD as hardware: a 33-bit sum (R92). -/
def aluAddrAdd (base : Word) (off : BitVec 13) : BitVec 33 := base.setWidth 33 + off.setWidth 33

/-- The alu's BITREV32 (R92). -/
def aluBitrev32 (v : Word) : Word := bitReverse32 v.toNat

/-- A request to the load_store_unit: NONE, LOAD_CELL or STORE_CELL, with a 33-bit address (R93). -/
inductive LsuRequest where
  | none
  | loadCell (addr : BitVec 33)
  | storeCell (addr : BitVec 33) (wdata : Word)
  deriving DecidableEq, Repr

/-- The request of each kind, from the outputs of ports A and B (R93). -/
def lsuRequest (r : DecodeRecord) (a b : Option Word) : LsuRequest :=
  match r.kind, a, b with
  | .write, some va, _ => .storeCell (r.c.setWidth 33) va
  | .read, some va, _ => .loadCell (aluAddrAdd va r.b)
  | .bitrev, some va, some vb => .storeCell (vb.setWidth 33) (aluBitrev32 va)
  | _, _, _ => .none

/-- The cell a LOAD_CELL request returns (R93). -/
def lsuReadData (s : State) : LsuRequest → Option Word
  | .none => none
  | .loadCell addr => some (s.memRead addr.toNat)
  | .storeCell _ _ => none

/-- The store a STORE_CELL request performs (R93). It never signals an error. -/
def lsuStore (s : State) : LsuRequest → State
  | .none => s
  | .loadCell _ => s
  | .storeCell addr wdata => s.memWrite addr.toNat wdata

/-- What drives the register file's write port: LOAD's immediate past the alu, READ's cell (R91, R92). -/
def regWriteData (r : DecodeRecord) (rdata : Option Word) : Option (RegIdx × Word) :=
  match r.kind with
  | .load => some (r.b.setWidth 5, r.c.setWidth 32)
  | .write => none
  | .read => rdata.map fun v => (r.d, v)
  | .bitrev => none
  | .unknown => none

/-- One step through the ports: everything is read from `s`, and the writes land at the end (R9, R91, R94). -/
def datapathStep (s : State) : State :=
  if s.status = .running then
    if s.more then
      match s.fetch with
      | none => s
      | some w =>
        let r := codecDecode w
        if r.kind = .unknown then s.raiseUnknownOpcode
        else
          let q := lsuRequest r (regReadPort s (portAIndex r)) (regReadPort s (portBIndex r))
          let t := regWritePort (lsuStore s q) (regWriteData r (lsuReadData s q))
          { t with pc := s.nextPc }
    else s.halt .haltedComplete
  else s

end Sys2Proof.Machine
end

