-- ==== Sys2Proof/Machine/HostPort.lean ====
section
/-!
DEFINITION. What the host does around a run: boot (spec/70_reset_and_hazards.md R152, spec/10_state.md R24), the run to its
end (R153), the report (spec/60_exceptions.md R139) and the read-out of data memory (spec/20_memory.md R44 to R47). None of
it happens while the core runs (R157).
-/

namespace Sys2Proof.Machine

/-- A start state the caller provides in place of the zeros (R24): register and cell values, not yet checked. -/
structure Preset where
  regs : List Nat
  cells : List Nat
  deriving DecidableEq, Repr

/-- Exactly 32 register values and MEM_SIZE cell values, each below 2^32 (R24). -/
def Preset.legal (p : Preset) (cfg : Config) : Bool :=
  decide (p.regs.length = 32) && decide (p.cells.length = cfg.memSize)
    && p.regs.all (fun v => decide (v < 2 ^ 32)) && p.cells.all (fun v => decide (v < 2 ^ 32))

/-- The memory whose cells from index `a` on hold the given values, in its canonical form. -/
def Memory.ofCells (a : Nat) : List Nat → Memory
  | [] => []
  | v :: vs =>
    if BitVec.ofNat 32 v = 0#32 then Memory.ofCells (a + 1) vs
    else (a, BitVec.ofNat 32 v) :: Memory.ofCells (a + 1) vs

/-- The registers and cells of a provided state in place of the reset zeros; pc and status are not touched (R24). -/
def State.applyPreset (s : State) (p : Preset) : State :=
  { s with
    regs := Vector.ofFn fun i : Fin 32 => BitVec.ofNat 32 (p.regs.getD i 0)
    mem := Memory.ofCells 0 p.cells }

/-- What booting answers: the state a run starts in, or why the host's input is refused. -/
inductive BootResult where
  | started (s : State)
  | refused (r : Refusal)
  deriving DecidableEq, Repr

/-- A machine with the host's parameters and image, right after reset (R150, R152). -/
def freshState (cfg : Config) (image : List Byte) : State :=
  { State.reset with image := image, cfg := cfg }.applyReset

/-- Boot (R152): load the image, choose the parameters, reset, optionally preset. -/
def boot (cfg : Config) (image : List Byte) (preset : Option Preset) : BootResult :=
  if cfg.Legal then
    match preset with
    | none => .started (freshState cfg image)
    | some p => if p.legal cfg then .started ((freshState cfg image).applyPreset p) else .refused .illegalPreset
  else .refused .illegalMemSize

/-- Halted: the status is not RUNNING, the end of the run (R153). -/
def State.halted (s : State) : Bool := decide (s.status ≠ .running)

/-- The run is reported complete (R139). -/
def State.complete (s : State) : Bool := decide (s.status = .haltedComplete)

/-- The exit status of `execute` is nonzero (R139). The spec names no number, so the model keeps only this (log entry 17). -/
def State.exitNonzero (s : State) : Bool := decide (s.status = .haltedUnknownOpcode) && s.cfg.strict

/-- The row value of address `a`: its cell, or absent at or above MEM_SIZE (R45, R47). -/
def State.cellRow (s : State) (a : Nat) : Option Word := if s.inBounds a then some (s.mem.read a) else none

/-- What a read-out request answers. -/
inductive ReadOut where
  /-- (address, value) in ascending order; `none` is the empty value field of an absent address (R45, R47). -/
  | rows (l : List (Nat × Option Word))
  /-- start > end, or a negative bound (R46). -/
  | invalidRange
  /-- The host has no access while the core is RUNNING (R44, log entry 12). -/
  | coreRunning
  deriving DecidableEq, Repr

/-- The rows of the inclusive range [start, stop] of a state's data memory (R45 to R47). -/
def State.readOut (s : State) (start stop : Int) : ReadOut :=
  if start < 0 ∨ stop < 0 ∨ stop < start then .invalidRange
  else .rows ((List.range (stop.toNat - start.toNat + 1)).map fun k => (start.toNat + k, s.cellRow (start.toNat + k)))

/-- The host's read-out, which it may ask for only of a halted core (R44). -/
def State.hostReadOut (s : State) (start stop : Int) : ReadOut :=
  if s.halted then s.readOut start stop else .coreRunning

/-- One line of the dump: address and value in base 10, the value field empty where absent (R45, R47). -/
def dumpRow (r : Nat × Option Word) : List Char :=
  Nat.toDigits 10 r.1 ++ [','] ++ (match r.2 with | some v => Nat.toDigits 10 v.toNat | none => [])

/-- The lines of the dump: the header, then a line per row (R45). -/
def dumpLines (l : List (Nat × Option Word)) : List (List Char) := "Address,Value".toList :: l.map dumpRow

/-- What a whole invocation of `execute` yields (R139, R152). -/
structure RunReport where
  final : State
  complete : Bool
  exitNonzero : Bool
  dump : ReadOut
  deriving DecidableEq, Repr

/-- How an invocation ends. -/
inductive ExecuteResult where
  | report (r : RunReport)
  | refused (r : Refusal)
  deriving DecidableEq, Repr

/-- The report on a state in which a run has ended (R139). -/
def reportOf (start stop : Int) (t : State) : RunReport :=
  { final := t, complete := t.complete, exitNonzero := t.exitNonzero, dump := t.hostReadOut start stop }

/-- `execute(image, range)` (R152): boot, step at most IMG_LEN / 5 + 1 times (R87, R153), report. -/
def executeImage (cfg : Config) (image : List Byte) (preset : Option Preset) (start stop : Int) : ExecuteResult :=
  match boot cfg image preset with
  | .refused r => .refused r
  | .started s =>
    match Sys2Proof.core.run (image.length / 5 + 1) s with
    | .next t => if State.halted t then .report (reportOf start stop t) else .refused .runNotHalted
    | .fault f => nomatch f
    | .refused r => .refused r

end Sys2Proof.Machine
end

