-- ==== Sys2Proof/Safety.lean ====
section
/-!
DEFINITION. What holds at every point of a run, in the terms statements use: legal parameters (spec/00_scope.md R5), memory in
its canonical form and inside its bounds (spec/10_state.md R22), the pc a multiple of 5 and no higher than IMG_LEN (R17),
and each halted status telling the truth about the image at pc (R20).
-/

namespace Sys2Proof.Machine

/-- The word at pc has none of the four tags. -/
def State.atUnknownWord (s : State) : Prop := ∃ w t, s.fetch = some w ∧ decode w = .unknownOpcode t

/-- The invariant of a run. -/
structure State.Inv (s : State) : Prop where
  /-- MEM_SIZE is in its legal range (R5). -/
  legal : s.cfg.Legal
  /-- The memory is in its canonical form. -/
  wf : s.mem.wf = true
  /-- No cell at or above MEM_SIZE is listed (R22, R34). -/
  below : s.mem.below s.cfg.memSize = true
  /-- pc is a multiple of 5 (R17). -/
  aligned : s.pc % 5 = 0
  /-- pc is at most IMG_LEN (R17). -/
  inImage : s.pc ≤ s.image.length
  /-- A complete run has fewer than 5 bytes left at pc (R20, R81). -/
  completeAtEnd : s.status = .haltedComplete → s.image.length < s.pc + 5
  /-- An incomplete run stands at a word whose tag is unknown (R20, R83). -/
  unknownAtPc : s.status = .haltedUnknownOpcode → s.atUnknownWord

/-- The registers an instruction reads: WRITE x[b], READ x[c], BITREV x[b] and x[c], LOAD none (R13). -/
def sourceRegs : Instr → List RegIdx
  | .load _ _ => []
  | .write b _ => [b]
  | .read _ c _ => [c]
  | .bitrev b c => [b, c]

/-- The registers an instruction writes: LOAD x[b], READ x[d], the others none (R13). -/
def destRegs : Instr → List RegIdx
  | .load b _ => [b]
  | .write _ _ => []
  | .read _ _ d => [d]
  | .bitrev _ _ => []

/-- The cell address an instruction stores to, in bounds or not, formed as its meaning forms it (R31). -/
def storeAddr (i : Instr) (s : State) : Option Nat :=
  match i with
  | .load _ _ => none
  | .write _ c => some (absAddr c)
  | .read _ _ _ => none
  | .bitrev _ c => some (regAddr s c)

/-- How many operands a kind has in source text (R68). -/
def operandCount : Kind → Nat
  | .load => 2
  | .write => 2
  | .read => 3
  | .bitrev => 2

/-- A run that ended well: the postcondition a claim about a whole program includes (R86, D26). -/
def State.RanToEnd (s : State) : Prop := s.status = .haltedComplete

end Sys2Proof.Machine
end

