-- ==== Sys2Proof/Certificates/Slice0/Obligations.lean ====
section
/-!
DEFINITION. The statements about the model, from the numbered rules of spec/. Where a statement rests on one of the spec's own
decisions (D<n>, spec/92_eei_decisions.md), on an inference the spec marks, or on a choice of this model, its docstring
says so.
-/

open Sys2Proof Sys2Proof.Machine

/-! ## The codec (spec/30_encoding.md, spec/20_memory.md) -/

/-- R61: decoding an encoded kind gives the kind and its fields masked to their widths; so every decoded instruction
comes back as it was. -/
def Obligations.DecodeEncodeRoundTrip : Prop :=
  (∀ r : RawInstr, decode (encodeFields r) = .instr r.toInstr ∧ r.toInstr.toRaw =
    ⟨r.kind, maskN r.kind.bWidth r.b, maskN r.kind.cWidth r.c, maskN r.kind.dWidth r.d⟩) ∧
  ∀ i : Instr, decode (encode i) = .instr i

/-- spec/30_encoding.md section 3, "The other direction": a rule the spec marks as derived. Encoding what a word decodes to
gives the word with its unused bits cleared, and the word itself exactly when they are all 0. -/
def Obligations.EncodeDecodeClearsUnusedBits : Prop :=
  ∀ (w : InstrWord) (i : Instr), decode w = .instr i →
    encode i = w &&& ~~~i.kind.unusedMask ∧ (encode i = w ↔ w &&& i.kind.unusedMask = 0#40)

/-- The spec's decision D5 (log entry 7): unused bits are ignored by decode and by execution, and encoded as 0. The first
clause says which bits they are. -/
def Obligations.UnusedBitsAreIgnored : Prop :=
  (∀ (k : Kind) (j : Nat), k.unusedMask.getLsbD j = (decide (j < 40) &&
    match k with | .load => decide (31 ≤ j) | .write => decide (37 ≤ j) | .read => decide (28 ≤ j) | .bitrev => decide (15 ≤ j))) ∧
  (∀ (k : Kind) (w v : InstrWord), tagOf w = k.tag → w &&& ~~~k.unusedMask = v &&& ~~~k.unusedMask →
    (∃ i, i.kind = k ∧ decode w = .instr i ∧ decode v = .instr i) ∧
    ∀ s : State, ∃ t u, step (s.placeWord w) = .next t ∧ step (s.placeWord v) = .next u ∧
      u = { t with image := u.image }) ∧
  ∀ r : RawInstr, encodeFields r &&& r.kind.unusedMask = 0#40

/-- R58: the tag selects the kind and its fields; any other tag is rejected as UnknownOpcode with that tag. -/
def Obligations.DecodeReadsTheFields : Prop :=
  ∀ w : InstrWord,
    (w.extractLsb' 0 5 = 15#5 → decode w = .instr (.load (w.extractLsb' 5 5) (w.extractLsb' 10 21))) ∧
    (w.extractLsb' 0 5 = 8#5 → decode w = .instr (.write (w.extractLsb' 5 5) (w.extractLsb' 10 27))) ∧
    (w.extractLsb' 0 5 = 17#5 →
      decode w = .instr (.read (w.extractLsb' 5 13) (w.extractLsb' 18 5) (w.extractLsb' 23 5))) ∧
    (w.extractLsb' 0 5 = 25#5 → decode w = .instr (.bitrev (w.extractLsb' 5 5) (w.extractLsb' 10 5))) ∧
    (w.extractLsb' 0 5 ≠ 15#5 → w.extractLsb' 0 5 ≠ 8#5 → w.extractLsb' 0 5 ≠ 17#5 → w.extractLsb' 0 5 ≠ 25#5 →
      decode w = .unknownOpcode (w.extractLsb' 0 5))

/-- spec/30_encoding.md section 4, the illegal class: exactly the 28 unassigned tags are rejected, and a run that meets one
halts with no other effect. -/
def Obligations.UnassignedTagsAreRejected : Prop :=
  (∀ (w : InstrWord) (t : BitVec 5), decode w = .unknownOpcode t ↔ t = tagOf w ∧
    t.toNat ∈ [0, 1, 2, 3, 4, 5, 6, 7, 9, 10, 11, 12, 13, 14, 16, 18, 19, 20, 21, 22, 23, 24, 26, 27, 28, 29, 30, 31]) ∧
  ∀ (s : State) (w : InstrWord) (t : BitVec 5), s.status = .running → s.fetch = some w → decode w = .unknownOpcode t →
    step s = .next { s with status := .haltedUnknownOpcode }

/-- encode (spec/30_encoding.md section 3): the value of each kind's word, every field masked to its width, and the unused
bits 0. The last clause, which of the five bytes holds which bits, is a byte order the spec marks as general knowledge
(spec/93_implementation_defined.md section 2; log entry 6, PRESUMED). -/
def Obligations.EncodePacksMaskedFields : Prop :=
  (∀ b c d : Nat,
    (encodeFields ⟨.load, b, c, d⟩).toNat = 15 + 2 ^ 5 * (b % 2 ^ 5) + 2 ^ 10 * (c % 2 ^ 21) ∧
    (encodeFields ⟨.write, b, c, d⟩).toNat = 8 + 2 ^ 5 * (b % 2 ^ 5) + 2 ^ 10 * (c % 2 ^ 27) ∧
    (encodeFields ⟨.read, b, c, d⟩).toNat = 17 + 2 ^ 5 * (b % 2 ^ 13) + 2 ^ 18 * (c % 2 ^ 5) + 2 ^ 23 * (d % 2 ^ 5) ∧
    (encodeFields ⟨.bitrev, b, c, d⟩).toNat = 25 + 2 ^ 5 * (b % 2 ^ 5) + 2 ^ 10 * (c % 2 ^ 5)) ∧
  (∀ r : RawInstr, encodeFields r &&& r.kind.unusedMask = 0#40) ∧
  ∀ w : InstrWord, (bytesOfWord w).map BitVec.toNat =
    [w.toNat % 256, w.toNat / 2 ^ 8 % 256, w.toNat / 2 ^ 16 % 256, w.toNat / 2 ^ 24 % 256, w.toNat / 2 ^ 32 % 256]

/-- spec/20_memory.md section 3, Fetch(pc), whose byte order the spec marks as general knowledge (log entry 6): where a whole
word remains, the fetch is the little-endian sum of the five bytes at pc, image byte pc+k holding bits [8k+7:8k]; elsewhere
there is no word. -/
def Obligations.FetchIsLittleEndian : Prop :=
  ∀ s : State,
    (s.image.length < s.pc + 5 → s.fetch = none) ∧
    ∀ b0 b1 b2 b3 b4 : Byte,
      s.image[s.pc]? = some b0 → s.image[s.pc + 1]? = some b1 → s.image[s.pc + 2]? = some b2 →
      s.image[s.pc + 3]? = some b3 → s.image[s.pc + 4]? = some b4 →
      ∃ w, s.fetch = some w ∧
        w.toNat = b0.toNat + 2 ^ 8 * b1.toNat + 2 ^ 16 * b2.toNat + 2 ^ 24 * b3.toNat + 2 ^ 32 * b4.toNat ∧
        w.extractLsb' 0 8 = b0 ∧ w.extractLsb' 8 8 = b1 ∧ w.extractLsb' 16 8 = b2 ∧ w.extractLsb' 24 8 = b3 ∧
        w.extractLsb' 32 8 = b4

/-- The bytes the encoder emits for an instruction (spec/30_encoding.md section 3), standing anywhere in an image, are
fetched and decoded as that instruction. -/
def Obligations.EncodedBytesAreFetchedBack : Prop :=
  ∀ (s : State) (i : Instr) (before after : List Byte), s.image = before ++ bytesOfWord (encode i) ++ after →
    s.pc = before.length → s.fetch = some (encode i) ∧ decodeBytes (s.image.drop s.pc) = .instr i after

/-- A few words of spec/95_test_vectors.md section 2.1 (V1, V5, V7, V10, V13, V17). -/
def Obligations.SpecWordsDecodeAsGiven : Prop :=
  decode 0x007FFFFFEF#40 = .instr (.load 31#5 2097151#21) ∧
  decode 0x1FFFFFFFE8#40 = .instr (.write 31#5 134217727#27) ∧
  decode 0x000FFFFFF1#40 = .instr (.read 8191#13 31#5 31#5) ∧
  decode 0x0000007FF9#40 = .instr (.bitrev 31#5 31#5) ∧
  decode 0x0000000000#40 = .unknownOpcode 0#5 ∧
  decode 0xFFFFFFFFEF#40 = .instr (.load 31#5 2097151#21)

/-! ## Registers and data memory (spec/10_state.md, spec/20_memory.md) -/

/-- R10: a register reads as the value last written to it, every index names one, and writing one leaves the others;
register 0 is no exception. -/
def Obligations.RegisterFileReadsLastWrite : Prop :=
  ∀ (s : State) (i j : RegIdx) (v : Word), (s.setReg i v).getReg i = v ∧ (i ≠ j → (s.setReg i v).getReg j = s.getReg j)

/-- R33: MemRead gives the cell in bounds and 0 out of bounds. It is a function of the state that answers a value alone, so
it changes no state and never raises. -/
def Obligations.MemReadIsBoundsChecked : Prop :=
  ∀ (s : State) (a : Nat), (a < s.cfg.memSize → s.memRead a = s.mem.read a) ∧ (s.cfg.memSize ≤ a → s.memRead a = 0#32)

/-- R34: MemWrite sets that cell in bounds and changes nothing at all out of bounds. -/
def Obligations.MemWriteIsBoundsChecked : Prop :=
  ∀ (s : State) (a : Nat) (v : Word),
    (a < s.cfg.memSize → (s.memWrite a v).mem.read a = v ∧
      (∀ x, x ≠ a → (s.memWrite a v).mem.read x = s.mem.read x) ∧
      s.memWrite a v = { s with mem := (s.memWrite a v).mem }) ∧
    (s.cfg.memSize ≤ a → s.memWrite a v = s)

/-- The model's own canonical form (log entry 1): two memories in it that read alike everywhere are the same data. -/
def Obligations.CanonicalMemoriesAreEqual : Prop :=
  ∀ m n : Memory, m.wf = true → n.wf = true → (∀ a, m.read a = n.read a) → m = n

/-! ## The four instructions (spec/41_load_immediate.md, spec/42_memory_access.md, spec/43_bit_reverse.md) -/

/-- R100, LOAD: format L and the source syntax give this instruction; it always completes, x[b] then holds the zero-extended
immediate, pc is 5 further, and nothing else changes. -/
def Obligations.LoadWritesImmediate : Prop :=
  (∀ w : InstrWord, tagOf w = 15#5 → decode w = .instr (.load (w.extractLsb' 5 5) (w.extractLsb' 10 21))) ∧
  (∀ (tb tc : List Char) (b c : Nat), literalValue tb = some b → literalValue tc = some c →
    parseTokens ["LOAD".toList, tb, tc] = .instr ⟨.load, b, c, 0⟩) ∧
  ∀ (b : RegIdx) (c : BitVec 21) (s : State), ∃ t, exec (.load b c) s = .next t ∧
    (t.getReg b).toNat = c.toNat ∧ (∀ r, r ≠ b → t.getReg r = s.getReg r) ∧
    (∀ a, t.memRead a = s.memRead a) ∧ t.mem = s.mem ∧
    t.pc = s.pc + 5 ∧ t.status = s.status ∧ t.image = s.image ∧ t.cfg = s.cfg

/-- R110, WRITE: format W and the source syntax give this instruction; it always completes, the cell at the field's address
then holds x[b] if in bounds and memory is as it was if not; no register changes, pc is 5 further, nothing else changes. -/
def Obligations.WriteStoresRegister : Prop :=
  (∀ w : InstrWord, tagOf w = 8#5 → decode w = .instr (.write (w.extractLsb' 5 5) (w.extractLsb' 10 27))) ∧
  (∀ (tb tc : List Char) (b c : Nat), literalValue tb = some b → literalValue tc = some c →
    parseTokens ["WRITE".toList, tb, tc] = .instr ⟨.write, b, c, 0⟩) ∧
  ∀ (b : RegIdx) (c : BitVec 27) (s : State), ∃ t, exec (.write b c) s = .next t ∧ absAddr c = c.toNat ∧
    (absAddr c < s.cfg.memSize → t.memRead (absAddr c) = s.getReg b) ∧
    (s.cfg.memSize ≤ absAddr c → t.mem = s.mem) ∧
    (∀ a, a ≠ absAddr c → t.memRead a = s.memRead a ∧ t.mem.read a = s.mem.read a) ∧
    (∀ r, t.getReg r = s.getReg r) ∧
    t.pc = s.pc + 5 ∧ t.status = s.status ∧ t.image = s.image ∧ t.cfg = s.cfg

/-- READ's effective address, the spec's decision D4 (log entry 8): the exact sum of base and offset, never wrapped, so a sum
at or above 2^32 is out of bounds for every legal MEM_SIZE and READ then writes 0. -/
def Obligations.ReadAddressIsExactSum : Prop :=
  ∀ (s : State) (b : BitVec 13) (c : RegIdx),
    baseOffAddr s c b = (s.getReg c).toNat + b.toNat ∧ baseOffAddr s c b ≤ 2 ^ 32 + 8190 ∧
    (s.cfg.Legal → 2 ^ 32 ≤ (s.getReg c).toNat + b.toNat →
      ∀ d, ∃ t, exec (.read b c d) s = .next t ∧ t.getReg d = 0#32)

/-- READ (spec/42_memory_access.md), on the exact sum of the spec's decision D4: format R and the source syntax (operands
reordered) give this instruction; it always completes, x[d] then holds the cell at the effective address, or 0 where that
is out of bounds; no other register and no cell changes, pc is 5 further, nothing else changes. -/
def Obligations.ReadLoadsCellOrZero : Prop :=
  (∀ w : InstrWord, tagOf w = 17#5 →
    decode w = .instr (.read (w.extractLsb' 5 13) (w.extractLsb' 18 5) (w.extractLsb' 23 5))) ∧
  (∀ (td tc tb : List Char) (d c b : Nat), literalValue td = some d → literalValue tc = some c →
    literalValue tb = some b → parseTokens ["READ".toList, td, tc, tb] = .instr ⟨.read, b, c, d⟩) ∧
  ∀ (b : BitVec 13) (c d : RegIdx) (s : State), ∃ t, exec (.read b c d) s = .next t ∧
    (baseOffAddr s c b < s.cfg.memSize → t.getReg d = s.mem.read (baseOffAddr s c b)) ∧
    (s.cfg.memSize ≤ baseOffAddr s c b → t.getReg d = 0#32) ∧
    (∀ r, r ≠ d → t.getReg r = s.getReg r) ∧ (∀ a, t.memRead a = s.memRead a) ∧ t.mem = s.mem ∧
    t.pc = s.pc + 5 ∧ t.status = s.status ∧ t.image = s.image ∧ t.cfg = s.cfg

/-- R120: v is reduced to its low 32 bits, and bit i of the result is bit 31-i of that. -/
def Obligations.BitReverse32MirrorsBits : Prop :=
  ∀ (v i : Nat), i < 32 → (bitReverse32 v).getLsbD i = (v % 2 ^ 32).testBit (31 - i)

/-- An inference the spec marks in spec/43_bit_reverse.md: on 32-bit values the reversal is its own inverse. -/
def Obligations.BitReverse32IsItsOwnInverse : Prop :=
  ∀ u : Nat, u < 2 ^ 32 → (bitReverse32 (bitReverse32 u).toNat).toNat = u

/-- R121, BITREV: format B and the source syntax give this instruction; it always completes, the cell at the address in x[c]
then holds x[b] with its bits reversed if in bounds and memory is as it was if not; no register changes, pc is 5
further, nothing else changes. -/
def Obligations.BitrevStoresReversedRegister : Prop :=
  (∀ w : InstrWord, tagOf w = 25#5 → decode w = .instr (.bitrev (w.extractLsb' 5 5) (w.extractLsb' 10 5))) ∧
  (∀ (tb tc : List Char) (b c : Nat), literalValue tb = some b → literalValue tc = some c →
    parseTokens ["BITREV".toList, tb, tc] = .instr ⟨.bitrev, b, c, 0⟩) ∧
  ∀ (b c : RegIdx) (s : State), ∃ t, exec (.bitrev b c) s = .next t ∧ regAddr s c = (s.getReg c).toNat ∧
    (regAddr s c < s.cfg.memSize →
      ∀ j, j < 32 → (t.memRead (regAddr s c)).getLsbD j = (s.getReg b).getLsbD (31 - j)) ∧
    (s.cfg.memSize ≤ regAddr s c → t.mem = s.mem) ∧
    (∀ a, a ≠ regAddr s c → t.memRead a = s.memRead a ∧ t.mem.read a = s.mem.read a) ∧
    (∀ r, t.getReg r = s.getReg r) ∧
    t.pc = s.pc + 5 ∧ t.status = s.status ∧ t.image = s.image ∧ t.cfg = s.cfg

/-- spec/70_reset_and_hazards.md section 3, same-register cases, an inference the spec marks from its decision D10: READ with
d = c uses the old base; BITREV with b = c uses one value as data and address; the next instruction sees a register
written by this one. -/
def Obligations.SameRegisterFormsUseOldValue : Prop :=
  ∀ s : State,
    (∀ (b : BitVec 13) (c : RegIdx), ∃ t, exec (.read b c c) s = .next t ∧
      t.getReg c = s.memRead ((s.getReg c).toNat + b.toNat)) ∧
    (∀ b : RegIdx, (s.getReg b).toNat < s.cfg.memSize → ∃ t, exec (.bitrev b b) s = .next t ∧
      t.memRead (s.getReg b).toNat = bitReverse32 (s.getReg b).toNat) ∧
    ∀ (b : RegIdx) (c : BitVec 21) (a : BitVec 27), a.toNat < s.cfg.memSize →
      ∃ t u, exec (.load b c) s = .next t ∧ exec (.write b a) t = .next u ∧ (u.memRead a.toNat).toNat = c.toNat

/-- spec/10_state.md section 1: LOAD and READ alone write registers, and each only its destination; WRITE, READ and BITREV
depend on no register but those they read, and LOAD on none. -/
def Obligations.RegistersReadAndWrittenAreThoseNamed : Prop :=
  ∀ (i : Instr) (s s' t t' : State), s' = { s with regs := s'.regs } →
    (∀ r ∈ sourceRegs i, s'.getReg r = s.getReg r) → exec i s = .next t → exec i s' = .next t' →
    (∀ r, r ∉ destRegs i → t.getReg r = s.getReg r) ∧ (∀ r ∈ destRegs i, t'.getReg r = t.getReg r) ∧
    t' = { t with regs := t'.regs }

/-- spec/10_state.md section 4: a step changes a data cell only by executing a WRITE or a BITREV that stores to it. -/
def Obligations.OnlyStoresChangeMemory : Prop :=
  ∀ (s t : State) (a : Nat), step s = .next t → t.memRead a ≠ s.memRead a →
    s.status = .running ∧ ∃ w i, s.fetch = some w ∧ decode w = .instr i ∧ (i.kind = .write ∨ i.kind = .bitrev) ∧
      storeAddr i s = some a ∧ a < s.cfg.memSize

/-- spec/20_memory.md section 2, "exactly the value last written": a READ whose address is a WRITE's in-bounds address gives
the value stored, whatever instruction that stores elsewhere comes between (a rule the spec marks as derived). -/
def Obligations.ReadGivesTheValueLastWritten : Prop :=
  ∀ (b c d : RegIdx) (a : BitVec 27) (off : BitVec 13) (i : Instr) (s t u v : State), a.toNat < s.cfg.memSize →
    exec (.write b a) s = .next t → exec i t = .next u → storeAddr i t ≠ some a.toNat →
    baseOffAddr u c off = a.toNat → exec (.read off c d) u = .next v → v.getReg d = s.getReg b

/-- spec/95_test_vectors.md P2, for every value and every in-bounds address: BITREV, READ back, BITREV again and READ back
give the register's old value (the involution is an inference the spec marks). -/
def Obligations.BitrevTwiceRestores : Prop :=
  ∀ (b c d : RegIdx) (s t u v w : State), (s.getReg c).toNat < s.cfg.memSize → d ≠ c →
    exec (.bitrev b c) s = .next t → exec (.read 0#13 c d) t = .next u →
    exec (.bitrev d c) u = .next v → exec (.read 0#13 c d) v = .next w → w.getReg d = s.getReg b

/-! ## The loop (spec/40_fetch_decode_execute.md, spec/60_exceptions.md) -/

/-- spec/40_fetch_decode_execute.md section 1: a step at which the bytes at pc decode to an instruction is that instruction's
exec, and nothing around it (the pc advance is part of exec, log entry 15). -/
def Obligations.StepRunsTheDecodedInstruction : Prop :=
  ∀ (s : State) (i : Instr) (rest : List Byte), s.status = .running →
    decodeBytes (s.image.drop s.pc) = .instr i rest → step s = exec i s

/-- R85: after its effect every executed instruction has advanced pc by exactly 5, and nothing else moves pc. -/
def Obligations.PcAdvancesByFive : Prop :=
  (∀ (i : Instr) (s : State), ∃ t, exec i s = .next t ∧ t.pc = s.pc + 5) ∧
  ∀ s t : State, step s = .next t → t.pc ≠ s.pc →
    t.pc = s.pc + 5 ∧ s.status = .running ∧ ∃ w i, s.fetch = some w ∧ decode w = .instr i

/-- The end-of-image check of spec/40_fetch_decode_execute.md section 1, with the status values of the spec's decisions D6 and
D18: where fewer than 5 bytes remain the step sets HALTED_COMPLETE and changes nothing else. -/
def Obligations.EndOfImageCompletesTheRun : Prop :=
  ∀ s : State, s.status = .running → s.image.length < s.pc + 5 → step s = .next { s with status := .haltedComplete }

/-- The unknown-opcode halt of spec/60_exceptions.md section 1, with the status and the kept pc of the spec's decision D6 (log
entry 9): a fetched word with none of the four tags sets HALTED_UNKNOWN_OPCODE and changes nothing else. -/
def Obligations.UnknownOpcodeHaltsTheRun : Prop :=
  ∀ (s : State) (w : InstrWord), s.status = .running → s.fetch = some w →
    (w.toNat % 32 ≠ 15 ∧ w.toNat % 32 ≠ 8 ∧ w.toNat % 32 ≠ 17 ∧ w.toNat % 32 ≠ 25) →
    step s = .next { s with status := .haltedUnknownOpcode }

/-- The order of spec/60_exceptions.md section 3, a rule the spec marks as derived: the end of the image comes first, so the
tag bits of a partial word raise nothing; then the tag; then the instruction, which leaves the status alone. -/
def Obligations.StepChecksInOrder : Prop :=
  ∀ s t : State, s.status = .running → step s = .next t →
    (t.status = .haltedComplete ↔ s.image.length < s.pc + 5) ∧
    (t.status = .haltedUnknownOpcode ↔ s.pc + 5 ≤ s.image.length ∧ s.atUnknownWord) ∧
    (t.status = .running ↔ s.pc + 5 ≤ s.image.length ∧ ¬s.atUnknownWord)

/-- Halted states are final (spec/40_fetch_decode_execute.md, decision D26). That the model's step then answers the unchanged
state is its own choice (log entry 3). -/
def Obligations.HaltedCoreStaysAsItIs : Prop :=
  ∀ (s : State) (n : Nat), s.status ≠ .running → Sys2Proof.core.run n s = .next s

/-- spec/60_exceptions.md section 1 and spec/93_implementation_defined.md: no condition of a RUNNING core faults or refuses, and
every instruction answers a next state. That a step of a HALTED state answers one too is the model's choice (log entry 3: the
spec gives a halted core no step), and so is the empty type of faults behind it (log entry 4, DEDUCED). -/
def Obligations.NothingFaultsOrIsRefused : Prop :=
  (∀ (i : Instr) (s : State), ∃ t, exec i s = .next t) ∧ ∀ (s : State) (n : Nat), ∃ t, Sys2Proof.core.run n s = .next t

/-- spec/20_memory.md section 5: no step and no run changes the image or the parameters (the rule is one the spec marks as
derived). -/
def Obligations.ImageAndParametersNeverChange : Prop :=
  ∀ (s t : State) (n : Nat), Sys2Proof.core.run n s = .next t → t.image = s.image ∧ t.cfg = s.cfg

/-- Every step keeps the invariant of a run: legal MEM_SIZE, canonical memory inside its bounds, pc a multiple of 5 inside
the image, and each halted status true of the image at pc. -/
def Obligations.InvariantKeptByEveryStep : Prop :=
  ∀ s t : State, s.Inv → step s = .next t → t.Inv

/-- The invariant holds right after reset. -/
def Obligations.InvariantHoldsAtReset : Prop := State.reset.Inv

/-- The invariant holds after every boot the host may make, whatever image and preset it loads. -/
def Obligations.InvariantHoldsAfterBoot : Prop :=
  ∀ (cfg : Config) (image : List Byte) (preset : Option Preset) (s : State), boot cfg image preset = .started s → s.Inv

/-- spec/10_state.md section 2, a rule the spec marks as derived: at every point of every run pc is a multiple of 5 and at
most IMG_LEN, and it grows only by 5 and only when a whole word remained. -/
def Obligations.PcStaysAlignedInsideTheImage : Prop :=
  ∀ (cfg : Config) (image : List Byte) (preset : Option Preset) (s t : State) (n : Nat),
    boot cfg image preset = .started s → Sys2Proof.core.run n s = .next t →
    t.pc % 5 = 0 ∧ t.pc ≤ image.length ∧
    ∀ u, step t = .next u → u.pc ≠ t.pc → u.pc = t.pc + 5 ∧ t.pc + 5 ≤ image.length

/-- spec/40_fetch_decode_execute.md, "every run is finite", from any state at all: a run halts within one step more than the
whole words that remain at pc. -/
def Obligations.EveryRunHalts : Prop :=
  ∀ s : State, ∃ t, Sys2Proof.core.run ((s.image.length - s.pc) / 5 + 1) s = .next t ∧ t.halted = true

/-- spec/40_fetch_decode_execute.md, a rule the spec marks as derived: a booted run that is still RUNNING after n steps has
executed the instructions at offsets 0, 5, .., 5(n-1) and stands at 5n; it executes at most IMG_LEN / 5 of them. -/
def Obligations.RunGoesThroughTheImageOnce : Prop :=
  ∀ (cfg : Config) (image : List Byte) (preset : Option Preset) (s : State), boot cfg image preset = .started s →
    (∀ (n : Nat) (t : State), Sys2Proof.core.run n s = .next t → t.status = .running → t.pc = 5 * n ∧ n ≤ image.length / 5) ∧
    ∃ t, Sys2Proof.core.run (image.length / 5 + 1) s = .next t ∧ t.halted = true

/-- spec/40_fetch_decode_execute.md, "No jumps, branches, or calls exist": where a run stands and whether it has halted depend
on the image and the starting pc alone, never on registers, memory or parameters. -/
def Obligations.ControlIgnoresData : Prop :=
  ∀ (s s' t t' : State) (n : Nat), s'.image = s.image → s'.pc = s.pc → s'.status = s.status →
    Sys2Proof.core.run n s = .next t → Sys2Proof.core.run n s' = .next t' → t'.pc = t.pc ∧ t'.status = t.status

/-- Trailing bytes (spec/40_fetch_decode_execute.md, decision D18): 1 to 4 bytes after the last whole word change nothing but
the image itself, in any run. -/
def Obligations.TrailingBytesAreNeverExecuted : Prop :=
  ∀ (s t : State) (tail : List Byte) (n : Nat), tail.length < 5 → s.image.length % 5 = 0 → s.pc % 5 = 0 →
    Sys2Proof.core.run n s = .next t →
    Sys2Proof.core.run n { s with image := s.image ++ tail } = .next { t with image := t.image ++ tail }

/-- STRICT (spec/00_scope.md, decision D19) changes no run: it decides only the exit status. -/
def Obligations.StrictChangesNoRun : Prop :=
  ∀ (s t : State) (strict : Bool) (n : Nat), Sys2Proof.core.run n s = .next t →
    Sys2Proof.core.run n { s with cfg := ⟨s.cfg.memSize, strict⟩ } = .next { t with cfg := ⟨t.cfg.memSize, strict⟩ }

/-! ## Reset and the host (spec/70_reset_and_hazards.md, spec/10_state.md, spec/60_exceptions.md, spec/20_memory.md) -/

/-- R150: reset zeroes every register and cell, sets pc to 0 and the status to RUNNING, and keeps what the host loaded; no
step leaves a halted state. The fixed reset state is such a one. -/
def Obligations.ResetGivesTheResetValues : Prop :=
  (∀ s : State, (∀ r, s.applyReset.getReg r = 0#32) ∧ (∀ a, s.applyReset.mem.read a = 0#32) ∧ s.applyReset.pc = 0 ∧
    s.applyReset.status = .running ∧ s.applyReset.image = s.image) ∧
  (∀ s t : State, s.halted = true → step s = .next t → t.halted = true) ∧
  State.reset.applyReset = State.reset

/-- Boot (spec/70_reset_and_hazards.md section 2). Without a provided state it is what reset leaves: registers and cells 0, pc
0, RUNNING, the image and the parameters loaded. With one (spec/10_state.md section 4, decision D11) exactly the legal ones are
taken, registers and cells then read as given, and pc and status are as after reset. That a MEM_SIZE outside the legal range
is refused, under this name, is the model's choice (log entry 2). -/
def Obligations.BootTakesExactlyLegalPresets : Prop :=
  (∀ (cfg : Config) (image : List Byte), cfg.Legal → ∃ s, boot cfg image none = .started s ∧ s.applyReset = s ∧
    (∀ r, s.getReg r = 0#32) ∧ (∀ a, s.mem.read a = 0#32) ∧
    s.pc = 0 ∧ s.status = .running ∧ s.image = image ∧ s.cfg = cfg) ∧
  (∀ (cfg : Config) (image : List Byte) (preset : Option Preset), ¬(1 ≤ cfg.memSize ∧ cfg.memSize ≤ 2 ^ 32) →
    boot cfg image preset = .refused .illegalMemSize) ∧
  ∀ (cfg : Config) (image : List Byte) (p : Preset), cfg.Legal →
    ((p.regs.length = 32 ∧ p.cells.length = cfg.memSize ∧ (∀ v ∈ p.regs, v < 2 ^ 32) ∧ (∀ v ∈ p.cells, v < 2 ^ 32)) →
      ∃ s, boot cfg image (some p) = .started s ∧ (∀ r : RegIdx, p.regs[r.toNat]? = some (s.getReg r).toNat) ∧
        (∀ a, a < cfg.memSize → p.cells[a]? = some (s.memRead a).toNat) ∧
        s.pc = 0 ∧ s.status = .running ∧ s.image = image ∧ s.cfg = cfg) ∧
    (¬(p.regs.length = 32 ∧ p.cells.length = cfg.memSize ∧ (∀ v ∈ p.regs, v < 2 ^ 32) ∧ (∀ v ∈ p.cells, v < 2 ^ 32)) →
      boot cfg image (some p) = .refused .illegalPreset)

/-- R46: a read-out request with start > end, or with a negative bound, fails with InvalidRange; no other does. -/
def Obligations.InvalidRangesAreRefused : Prop :=
  ∀ (s : State) (start stop : Int), s.readOut start stop = .invalidRange ↔ stop < start ∨ start < 0 ∨ stop < 0

/-- The rows of the read-out (spec/20_memory.md section 6, with the absent rows of decision D12): one for every address in
range, ascending, its cell in bounds and absent at or above MEM_SIZE; the dump has one line more, its header, and a row's line
is its address and its value in base 10 around a comma, nothing after the comma where the value is absent. -/
def Obligations.ReadOutListsEveryAddress : Prop :=
  ∀ (s : State) (start stop : Nat), start ≤ stop → ∃ l, s.readOut start stop = .rows l ∧
    l.length = stop - start + 1 ∧ (dumpLines l).length = l.length + 1 ∧ (dumpLines l)[0]? = some "Address,Value".toList ∧
    ∀ a, start ≤ a → a ≤ stop →
      (a < s.cfg.memSize → l[a - start]? = some (a, some (s.memRead a)) ∧
        (dumpLines l)[a - start + 1]? = some (Nat.toDigits 10 a ++ ',' :: Nat.toDigits 10 (s.memRead a).toNat)) ∧
      (s.cfg.memSize ≤ a → l[a - start]? = some (a, none) ∧
        (dumpLines l)[a - start + 1]? = some (Nat.toDigits 10 a ++ [',']))

/-- R139: complete exactly when HALTED_COMPLETE, incomplete at the end of a run exactly when HALTED_UNKNOWN_OPCODE; a nonzero exit status exactly when HALTED_UNKNOWN_OPCODE and STRICT. -/
def Obligations.ExitReportFollowsStatus : Prop :=
  ∀ (s : State) (start stop : Int),
    ((reportOf start stop s).complete = true ↔ s.status = .haltedComplete) ∧
    (s.halted = true → ((reportOf start stop s).complete = false ↔ s.status = .haltedUnknownOpcode)) ∧
    ((reportOf start stop s).exitNonzero = true ↔ s.status = .haltedUnknownOpcode ∧ s.cfg.strict = true)

/-- An invocation of execute (spec/70_reset_and_hazards.md sections 2; the end of a run as the spec defines it): whatever the
image, it is refused only at boot, and otherwise reports the halted state the steps lead to. -/
def Obligations.ExecuteReportsTheHaltedState : Prop :=
  ∀ (cfg : Config) (image : List Byte) (preset : Option Preset) (start stop : Int),
    (∀ r, boot cfg image preset = .refused r → executeImage cfg image preset start stop = .refused r) ∧
    ∀ s, boot cfg image preset = .started s → ∃ t n, Sys2Proof.core.run n s = .next t ∧ t.halted = true ∧
      n ≤ image.length / 5 + 1 ∧ executeImage cfg image preset start stop = .report (reportOf start stop t) ∧
      (reportOf start stop t).dump = t.readOut start stop

/-! ## The ports (spec/40_fetch_decode_execute.md section 2, decision D7) -/

/-- The six parts joined by their ports take the same step as the loop, from every state. -/
def Obligations.DatapathTakesTheSameStep : Prop :=
  ∀ s : State, step s = .next (datapathStep s)

/-- The alu's two functions on hardware widths: the 33-bit sum is exact, and BITREV32 is bit_reverse32. -/
def Obligations.AluSumIsExact : Prop :=
  (∀ (base : Word) (off : BitVec 13), (aluAddrAdd base off).toNat = base.toNat + off.toNat) ∧
  ∀ (v : Word) (j : Nat), j < 32 → (aluBitrev32 v).getLsbD j = v.getLsbD (31 - j)

/-- The decode port gives the kind and fields that decode gives, each field the kind does not use 0, and UNKNOWN exactly
where decode rejects. -/
def Obligations.DecodePortAgreesWithDecode : Prop :=
  ∀ w : InstrWord,
    (∀ b c, decode w = .instr (.load b c) ↔ codecDecode w = ⟨.load, b.setWidth 13, c.setWidth 27, 0#5⟩) ∧
    (∀ b c, decode w = .instr (.write b c) ↔ codecDecode w = ⟨.write, b.setWidth 13, c, 0#5⟩) ∧
    (∀ b c d, decode w = .instr (.read b c d) ↔ codecDecode w = ⟨.read, b, c.setWidth 27, d⟩) ∧
    (∀ b c, decode w = .instr (.bitrev b c) ↔ codecDecode w = ⟨.bitrev, b.setWidth 13, c.setWidth 27, 0#5⟩) ∧
    ((∃ t, decode w = .unknownOpcode t) ↔ codecDecode w = ⟨.unknown, 0#13, 0#27, 0#5⟩)

/-! ## The source format (spec/30_encoding.md section 5) -/

/-- The mnemonic is compared without regard to case (spec/30_encoding.md section 5; that this is the case of the ASCII letters
is the model's choice, log entry 13): a token names a kind exactly when it is its mnemonic once in capitals. -/
def Obligations.MnemonicsIgnoreCase : Prop :=
  ∀ (m : List Char) (k : Kind), kindOfMnemonic m = some k ↔ m.map Char.toUpper =
    match k with | .load => "LOAD".toList | .write => "WRITE".toList | .read => "READ".toList | .bitrev => "BITREV".toList

/-- R68: each kind's operands in source order, mapped onto its fields, READ's reordered; with another number of operands the
line is malformed. -/
def Obligations.OperandsMapOntoFields : Prop :=
  ∀ (m t1 t2 t3 : List Char) (v1 v2 v3 : Nat),
    literalValue t1 = some v1 → literalValue t2 = some v2 → literalValue t3 = some v3 →
    (kindOfMnemonic m = some .load → parseTokens [m, t1, t2] = .instr ⟨.load, v1, v2, 0⟩) ∧
    (kindOfMnemonic m = some .write → parseTokens [m, t1, t2] = .instr ⟨.write, v1, v2, 0⟩) ∧
    (kindOfMnemonic m = some .read → parseTokens [m, t1, t2, t3] = .instr ⟨.read, v3, v2, v1⟩) ∧
    (kindOfMnemonic m = some .bitrev → parseTokens [m, t1, t2] = .instr ⟨.bitrev, v1, v2, 0⟩) ∧
    ∀ (k : Kind) (ops : List (List Char)), kindOfMnemonic m = some k → ops.length ≠ operandCount k →
      parseTokens (m :: ops) = .malformed

/-- Numeric literals (decision D13): a token is numeric exactly when it is one or more decimal digits, or 0b or 0B and one or
more binary digits; a number written in base 10, or so in base 2, with any leading zeros, reads back as itself. -/
def Obligations.LiteralsReadBack : Prop :=
  (∀ tok : List Char, literalValue tok ≠ none ↔ (tok ≠ [] ∧ ∀ c ∈ tok, c.isDigit = true) ∨
    ∃ (p : Char) (ds : List Char), (p = 'b' ∨ p = 'B') ∧ tok = '0' :: p :: ds ∧ ds ≠ [] ∧ ∀ c ∈ ds, c = '0' ∨ c = '1') ∧
  ∀ zeros n : Nat, literalValue (List.replicate zeros '0' ++ Nat.toDigits 10 n) = some n ∧
    literalValue ('0' :: 'b' :: List.replicate zeros '0' ++ Nat.toDigits 2 n) = some n ∧
    literalValue ('0' :: 'B' :: List.replicate zeros '0' ++ Nat.toDigits 2 n) = some n

/-- Tokens (decision D14; which characters separate is log entry 13): no token is empty or holds a separator; a line made of
tokens, each followed by separators of its own, which only the last may lack, and begun with separators or none, gives back
those tokens in order; and stripping a line changes no token. -/
def Obligations.TokensAreFoundAgain : Prop :=
  (∀ (l t : List Char), t ∈ tokens l → t ≠ [] ∧ ∀ c ∈ t, isSeparator c = false) ∧
  (∀ (lead : List Char) (parts : List (List Char × List Char)), (∀ c ∈ lead, isSeparator c = true) →
    (∀ p ∈ parts, p.1 ≠ [] ∧ (∀ c ∈ p.1, isSeparator c = false) ∧ ∀ c ∈ p.2, isSeparator c = true) →
    (∀ p ∈ parts.dropLast, p.2 ≠ []) →
    tokens (lead ++ parts.flatMap fun p => p.1 ++ p.2) = parts.map fun p => p.1) ∧
  ∀ l : List Char, tokens (stripLine l) = tokens l

/-- Blank lines and comments (spec/30_encoding.md section 5, decision D14; the whitespace characters are log entry 13): a line
yields nothing exactly when it is whitespace only or its first other character is a semicolon. Any other line without a token
(commas and whitespace) is malformed, which is the model's reading (log entry 14). -/
def Obligations.BlankAndCommentLinesYieldNothing : Prop :=
  (∀ l : List Char, assembleLine l = .nothing ↔ (∀ c ∈ l, isSpace c = true) ∨
    ∃ space rest : List Char, (∀ c ∈ space, isSpace c = true) ∧ l = space ++ ';' :: rest) ∧
  ∀ l : List Char, (∀ c ∈ l, isSeparator c = true) → ',' ∈ l → assembleLine l = .malformed

/-- R71: the image is the words of the lines that assembled, in source-line order, 5 bytes each, and nothing else. -/
def Obligations.ImageIsTheAssembledWords : Prop :=
  (∀ text : List Char, (assemble text).image = (sourceLines text).flatMap fun l =>
    match assembleLine l with | .instr r => bytesOfWord (encodeFields r) | .nothing => [] | .malformed => []) ∧
  ∀ text : List Char, (assemble text).image.length =
    5 * ((sourceLines text).filter fun l => match assembleLine l with | .instr _ => true | .nothing => false | .malformed => false).length

/-- R72: a line that is neither empty nor a comment, and whose tokens are a mnemonic and operands, is malformed in exactly the
three cases, and else yields the instruction of those tokens; the 1-based numbers of the failing lines, and the failed report;
the failing lines do not stop the pass and add no bytes: the image is that of the other lines. -/
def Obligations.MalformedLinesAreNumbered : Prop :=
  (∀ (l m : List Char) (ops : List (List Char)), stripLine l ≠ [] → (stripLine l).head? ≠ some ';' →
    tokens (stripLine l) = m :: ops →
    (assembleLine l = .malformed ↔ kindOfMnemonic m = none ∨
      (∃ k, kindOfMnemonic m = some k ∧ ops.length ≠ operandCount k) ∨ ∃ o ∈ ops, literalValue o = none) ∧
    (assembleLine l ≠ .malformed → ∃ r, assembleLine l = .instr r ∧ parseTokens (m :: ops) = .instr r)) ∧
  (∀ (text : List Char) (n : Nat), n ∈ (assemble text).failed ↔
    ∃ l, 1 ≤ n ∧ (sourceLines text)[n - 1]? = some l ∧ assembleLine l = .malformed) ∧
  (∀ text : List Char, (assemble text).isFailed = true ↔ ∃ l ∈ sourceLines text, assembleLine l = .malformed) ∧
  ∀ text : List Char, (assemble text).image =
    imageOfWords (wordsOf (((sourceLines text).map assembleLine).filter fun r => decide (r ≠ .malformed)))

/-- Two texts joined by a newline assemble to one image after the other, and a malformed line between them changes nothing of
that (spec/30_encoding.md section 5; that a line ends at the newline character is the model's choice, log entry 13). -/
def Obligations.TextsAssembleOneAfterTheOther : Prop :=
  ∀ first second : List Char,
    (assemble (first ++ '\n' :: second)).image = (assemble first).image ++ (assemble second).image ∧
    ∀ line : List Char, '\n' ∉ line → assembleLine line = .malformed →
      (assemble (first ++ '\n' :: line ++ '\n' :: second)).image = (assemble first).image ++ (assemble second).image

/-- Codec, assembler and core together: whatever the source text, the image it assembles to, booted with any legal parameters
and preset, runs to its end and is complete, never meeting an unknown opcode. -/
def Obligations.AssembledProgramsRunToCompletion : Prop :=
  ∀ (text : List Char) (cfg : Config) (preset : Option Preset) (s : State),
    boot cfg (assemble text).image preset = .started s →
    ∃ t, Sys2Proof.core.run ((assemble text).image.length / 5 + 1) s = .next t ∧ t.RanToEnd ∧
      t.pc = (assemble text).image.length
end

