-- ==== Sys2Proof/Laws/State.lean ====
section
/-!
SUPPORT. One lemma per field per update of State, each true by unfolding, so that no later proof unfolds a record update;
and the register file's read after write.
-/

namespace Sys2Proof.Machine

variable (s : State) (i : RegIdx) (v : Word) (h : RunStatus)

@[simp] theorem setReg_pc : (s.setReg i v).pc = s.pc := rfl
@[simp] theorem setReg_status : (s.setReg i v).status = s.status := rfl
@[simp] theorem setReg_mem : (s.setReg i v).mem = s.mem := rfl
@[simp] theorem setReg_image : (s.setReg i v).image = s.image := rfl
@[simp] theorem setReg_cfg : (s.setReg i v).cfg = s.cfg := rfl

@[simp] theorem advancePc_regs : s.advancePc.regs = s.regs := rfl
@[simp] theorem advancePc_pc : s.advancePc.pc = s.pc + 5 := rfl
@[simp] theorem advancePc_status : s.advancePc.status = s.status := rfl
@[simp] theorem advancePc_mem : s.advancePc.mem = s.mem := rfl
@[simp] theorem advancePc_image : s.advancePc.image = s.image := rfl
@[simp] theorem advancePc_cfg : s.advancePc.cfg = s.cfg := rfl

@[simp] theorem halt_regs : (s.halt h).regs = s.regs := rfl
@[simp] theorem halt_pc : (s.halt h).pc = s.pc := rfl
@[simp] theorem halt_status : (s.halt h).status = h := rfl
@[simp] theorem halt_mem : (s.halt h).mem = s.mem := rfl
@[simp] theorem halt_image : (s.halt h).image = s.image := rfl
@[simp] theorem halt_cfg : (s.halt h).cfg = s.cfg := rfl

@[simp] theorem raiseUnknownOpcode_eq : s.raiseUnknownOpcode = s.halt .haltedUnknownOpcode := rfl

@[simp] theorem applyReset_pc : s.applyReset.pc = 0 := rfl
@[simp] theorem applyReset_status : s.applyReset.status = .running := rfl
@[simp] theorem applyReset_mem : s.applyReset.mem = [] := rfl
@[simp] theorem applyReset_image : s.applyReset.image = s.image := rfl
@[simp] theorem applyReset_cfg : s.applyReset.cfg = s.cfg := rfl

@[simp] theorem placeWord_regs (w : InstrWord) : (s.placeWord w).regs = s.regs := rfl
@[simp] theorem placeWord_pc (w : InstrWord) : (s.placeWord w).pc = s.pc := rfl
@[simp] theorem placeWord_status (w : InstrWord) : (s.placeWord w).status = .running := rfl
@[simp] theorem placeWord_mem (w : InstrWord) : (s.placeWord w).mem = s.mem := rfl
@[simp] theorem placeWord_cfg (w : InstrWord) : (s.placeWord w).cfg = s.cfg := rfl

@[simp] theorem advancePc_getReg (j : RegIdx) : s.advancePc.getReg j = s.getReg j := rfl
@[simp] theorem halt_getReg (j : RegIdx) : (s.halt h).getReg j = s.getReg j := rfl

/-- The register file: a read gives the value written to that register, and other registers keep theirs (R10). -/
theorem setReg_getReg (j : RegIdx) : (s.setReg i v).getReg j = if j = i then v else s.getReg j := by
  simp only [State.getReg, State.setReg, Vector.getElem_set]
  by_cases e : i = j
  · simp [e]
  · rw [if_neg (fun n => e (BitVec.eq_of_toNat_eq n)), if_neg (fun n => e n.symm)]

@[simp] theorem setReg_getReg_same : (s.setReg i v).getReg i = v := by simp [setReg_getReg]

theorem setReg_getReg_other {i j : RegIdx} (ne : j ≠ i) : (s.setReg i v).getReg j = s.getReg j := by
  simp [setReg_getReg, ne]

@[simp] theorem applyReset_getReg (j : RegIdx) : s.applyReset.getReg j = 0#32 := by
  simp [State.getReg, State.applyReset]

end Sys2Proof.Machine
end

