-- ==== Sys2Proof/Laws/Memory.lean ====
section
/-!
SUPPORT. The data memory: read after write, and that every operation keeps the canonical form and the bound.
-/

namespace Sys2Proof.Machine

@[simp] theorem memory_read_nil (a : Nat) : Memory.read [] a = 0#32 := rfl

theorem memory_read_erase (m : Memory) (a x : Nat) :
    (m.erase a).read x = if x = a then 0#32 else m.read x := by
  induction m with
  | nil => simp [Memory.erase]
  | cons p m ih =>
    obtain ⟨k, v⟩ := p
    by_cases hk : k = a
    · subst hk
      by_cases hx : x = k
      · subst hx; simpa [Memory.erase] using ih
      · simp [Memory.erase, Memory.read, ih, hx, Ne.symm hx]
    · by_cases hx : k = x
      · subst hx
        simp [Memory.erase, Memory.read, hk]
      · simp [Memory.erase, Memory.read, hk, hx, ih]

/-- Listing a cell that is not listed yet. -/
theorem memory_read_insert (m : Memory) (a x : Nat) (v : Word) (fresh : ∀ p ∈ m, p.1 ≠ a) :
    (m.insert a v).read x = if x = a then v else m.read x := by
  induction m with
  | nil => simp [Memory.insert, Memory.read, eq_comm]
  | cons p m ih =>
    obtain ⟨k, w⟩ := p
    have hk : k ≠ a := fresh (k, w) (by simp)
    have ih := ih fun q hq => fresh q (by simp [hq])
    unfold Memory.insert
    split
    · simp only [Memory.read, eq_comm (a := a)]
    · by_cases hx : k = x
      · subst hx
        simp [Memory.read, hk]
      · simp [Memory.read, hx, ih]

theorem memory_mem_erase {m : Memory} {a : Nat} {p : Nat × Word} (h : p ∈ m.erase a) : p ∈ m ∧ p.1 ≠ a := by
  induction m with
  | nil => simp [Memory.erase] at h
  | cons q m ih =>
    obtain ⟨k, v⟩ := q
    by_cases hk : k = a
    · rw [Memory.erase, if_pos hk] at h
      exact ⟨by simp [(ih h).1], (ih h).2⟩
    · rw [Memory.erase, if_neg hk] at h
      rcases List.mem_cons.1 h with rfl | h
      · exact ⟨by simp, hk⟩
      · exact ⟨by simp [(ih h).1], (ih h).2⟩

/-- Read after write on the memory itself, in its canonical form or not. -/
theorem memory_read_write (m : Memory) (a x : Nat) (v : Word) :
    (m.write a v).read x = if x = a then v else m.read x := by
  unfold Memory.write
  split
  · next hv => rw [memory_read_erase, hv]
  · rw [memory_read_insert _ _ _ _ fun p hp => (memory_mem_erase hp).2, memory_read_erase]
    split <;> rfl

theorem wfFrom_mono {m : Memory} {lo lo' : Nat} (le : lo' ≤ lo) (h : Memory.wfFrom lo m = true) :
    Memory.wfFrom lo' m = true := by
  cases m with
  | nil => rfl
  | cons p m =>
    obtain ⟨k, v⟩ := p
    simp only [Memory.wfFrom, Bool.and_eq_true, decide_eq_true_eq] at h ⊢
    exact ⟨⟨by omega, h.1.2⟩, h.2⟩

theorem wfFrom_erase {m : Memory} {lo : Nat} (a : Nat) (h : Memory.wfFrom lo m = true) :
    Memory.wfFrom lo (m.erase a) = true := by
  induction m generalizing lo with
  | nil => rfl
  | cons p m ih =>
    obtain ⟨k, v⟩ := p
    simp only [Memory.wfFrom, Bool.and_eq_true, decide_eq_true_eq] at h
    by_cases hk : k = a
    · rw [Memory.erase, if_pos hk]
      exact ih (wfFrom_mono (by omega) h.2)
    · rw [Memory.erase, if_neg hk]
      simp only [Memory.wfFrom, Bool.and_eq_true, decide_eq_true_eq]
      exact ⟨h.1, ih h.2⟩

theorem wfFrom_insert {m : Memory} {lo a : Nat} {v : Word} (hv : v ≠ 0#32) (ha : lo ≤ a)
    (fresh : ∀ p ∈ m, p.1 ≠ a) (h : Memory.wfFrom lo m = true) : Memory.wfFrom lo (m.insert a v) = true := by
  induction m generalizing lo with
  | nil => simp [Memory.insert, Memory.wfFrom, hv, ha]
  | cons p m ih =>
    obtain ⟨k, w⟩ := p
    have hk : k ≠ a := fresh (k, w) (by simp)
    simp only [Memory.wfFrom, Bool.and_eq_true, decide_eq_true_eq] at h
    unfold Memory.insert
    split
    · simp only [Memory.wfFrom, Bool.and_eq_true, decide_eq_true_eq]
      exact ⟨⟨ha, by simpa using hv⟩, ⟨by omega, h.1.2⟩, h.2⟩
    · simp only [Memory.wfFrom, Bool.and_eq_true, decide_eq_true_eq]
      exact ⟨h.1, ih (by omega) (fun q hq => fresh q (by simp [hq])) h.2⟩

/-- A write keeps the canonical form. -/
theorem memory_wf_write {m : Memory} (h : m.wf = true) (a : Nat) (v : Word) : (m.write a v).wf = true := by
  unfold Memory.write
  split
  · exact wfFrom_erase a h
  · next hv => exact wfFrom_insert hv (Nat.zero_le a) (fun p hp => (memory_mem_erase hp).2) (wfFrom_erase a h)

theorem memory_mem_insert {m : Memory} {a : Nat} {v : Word} {p : Nat × Word} (h : p ∈ m.insert a v) :
    p = (a, v) ∨ p ∈ m := by
  induction m with
  | nil => simpa [Memory.insert] using h
  | cons q m ih =>
    obtain ⟨k, w⟩ := q
    unfold Memory.insert at h
    split at h
    · simpa using h
    · rcases List.mem_cons.1 h with rfl | h
      · simp
      · rcases ih h with e | e <;> simp [e]

/-- A write below the bound keeps every listed cell below it. -/
theorem memory_below_write {m : Memory} {n a : Nat} (h : m.below n = true) (ha : a < n) (v : Word) :
    (m.write a v).below n = true := by
  simp only [Memory.below, List.all_eq_true, decide_eq_true_eq] at h ⊢
  intro p hp
  unfold Memory.write at hp
  split at hp
  · exact h p (memory_mem_erase hp).1
  · rcases memory_mem_insert hp with rfl | hp
    · exact ha
    · exact h p (memory_mem_erase hp).1

variable (s : State) (a : Nat) (v : Word)

/-- A store as one update of the memory field, in bounds or not. -/
theorem memWrite_eq : s.memWrite a v = { s with mem := if s.inBounds a then s.mem.write a v else s.mem } := by
  unfold State.memWrite; split <;> rfl

@[simp] theorem memWrite_regs : (s.memWrite a v).regs = s.regs := by unfold State.memWrite; split <;> rfl
@[simp] theorem memWrite_pc : (s.memWrite a v).pc = s.pc := by unfold State.memWrite; split <;> rfl
@[simp] theorem memWrite_status : (s.memWrite a v).status = s.status := by unfold State.memWrite; split <;> rfl
@[simp] theorem memWrite_image : (s.memWrite a v).image = s.image := by unfold State.memWrite; split <;> rfl
@[simp] theorem memWrite_cfg : (s.memWrite a v).cfg = s.cfg := by unfold State.memWrite; split <;> rfl
@[simp] theorem memWrite_getReg (j : RegIdx) : (s.memWrite a v).getReg j = s.getReg j := by
  unfold State.memWrite; split <;> rfl

@[simp] theorem setReg_memRead (i : RegIdx) (x : Nat) : (s.setReg i v).memRead x = s.memRead x := rfl
@[simp] theorem advancePc_memRead (x : Nat) : s.advancePc.memRead x = s.memRead x := rfl
@[simp] theorem halt_memRead (h : RunStatus) (x : Nat) : (s.halt h).memRead x = s.memRead x := rfl

/-- The load_store_unit's read after write, in bounds and out (R33, R34). -/
theorem memRead_memWrite (x : Nat) :
    (s.memWrite a v).memRead x = if x = a ∧ s.inBounds a then v else s.memRead x := by
  by_cases hb : s.inBounds a
  · have e : s.memWrite a v = { s with mem := s.mem.write a v } := by simp [State.memWrite, hb]
    rw [e]
    by_cases hx : x = a
    · subst hx
      have hb' : x < s.cfg.memSize := by simpa [State.inBounds] using hb
      simp [State.memRead, State.inBounds, hb', memory_read_write]
    · simp [State.memRead, State.inBounds, memory_read_write, hx]
  · simp [State.memWrite, hb]

/-- A write out of bounds is no write (R34). -/
theorem memWrite_outOfBounds (h : s.inBounds a = false) : s.memWrite a v = s := by simp [State.memWrite, h]

/-- A store keeps the canonical form, in bounds and out. -/
theorem memWrite_wf (h : s.mem.wf = true) : (s.memWrite a v).mem.wf = true := by
  simp only [memWrite_eq]
  split
  · exact memory_wf_write h a v
  · exact h

/-- The reset memory is in its canonical form, and nothing is listed in it. -/
theorem reset_mem_wf : State.reset.mem.wf = true := rfl

/-- The canonical form of a preset memory. -/
theorem wfFrom_ofCells (vs : List Nat) : Memory.wfFrom a (Memory.ofCells a vs) = true := by
  induction vs generalizing a with
  | nil => rfl
  | cons v vs ih =>
    unfold Memory.ofCells
    split
    · exact wfFrom_mono (Nat.le_succ a) (ih (a + 1))
    · next hv =>
      simp only [Memory.wfFrom, Bool.and_eq_true, decide_eq_true_eq]
      exact ⟨⟨Nat.le_refl a, by simpa using hv⟩, ih (a + 1)⟩

theorem ofCells_below (vs : List Nat) : (Memory.ofCells a vs).below (a + vs.length) = true := by
  induction vs generalizing a with
  | nil => rfl
  | cons v vs ih =>
    have := ih (a + 1)
    unfold Memory.ofCells
    simp only [Memory.below, List.all_eq_true, decide_eq_true_eq, List.length_cons] at this ⊢
    split
    · intro p hp
      have := this p hp
      omega
    · intro p hp
      rcases List.mem_cons.1 hp with rfl | hp
      · simp
      · have := this p hp
        omega

theorem ofCells_read_low (vs : List Nat) (x : Nat) (h : x < a) : (Memory.ofCells a vs).read x = 0#32 := by
  induction vs generalizing a with
  | nil => rfl
  | cons v vs ih =>
    unfold Memory.ofCells
    split
    · exact ih (a + 1) (by omega)
    · simp only [Memory.read]
      rw [if_neg (by omega)]
      exact ih (a + 1) (by omega)

/-- A preset cell reads as the value given for it (R24). -/
theorem ofCells_read (vs : List Nat) (k : Nat) :
    (Memory.ofCells a vs).read (a + k) = BitVec.ofNat 32 (vs.getD k 0) := by
  induction vs generalizing a k with
  | nil => simp [Memory.ofCells]
  | cons v vs ih =>
    unfold Memory.ofCells
    cases k with
    | zero =>
      split
      · next hv => rw [ofCells_read_low _ _ _ (by omega)]; simp [hv]
      · simp [Memory.read]
    | succ k =>
      have e : a + (k + 1) = a + 1 + k := by omega
      split
      · rw [e, ih]; simp
      · simp only [Memory.read]
        rw [if_neg (by omega), e, ih]; simp

end Sys2Proof.Machine
end

