-- ==== Sys2Proof/Laws/Exec.lean ====
section
/-!
SUPPORT. What an instruction and a step can do, said once: the result of each meaning, the inversion of exec and of step,
and the fetch in terms of pc and IMG_LEN.
-/

namespace Sys2Proof.Machine

variable {s t : State} {i : Instr}

theorem exec_load (b : RegIdx) (c : BitVec 21) (s : State) :
    exec (.load b c) s = .next (s.setReg b (immOperand c)).advancePc := rfl

theorem exec_write (b : RegIdx) (c : BitVec 27) (s : State) :
    exec (.write b c) s = .next (s.memWrite (absAddr c) (s.getReg b)).advancePc := rfl

theorem exec_read (b : BitVec 13) (c d : RegIdx) (s : State) :
    exec (.read b c d) s = .next (s.setReg d (s.memRead (baseOffAddr s c b))).advancePc := rfl

theorem exec_bitrev (b c : RegIdx) (s : State) :
    exec (.bitrev b c) s = .next (s.memWrite (regAddr s c) (bitReverse32 (s.getReg b).toNat)).advancePc := rfl

/-- What executing an instruction can do: one register written, or one store, and the pc advanced. -/
theorem exec_cases (h : exec i s = .next t) :
    (∃ b c, i = .load b c ∧ t = (s.setReg b (immOperand c)).advancePc) ∨
    (∃ b c, i = .write b c ∧ t = (s.memWrite (absAddr c) (s.getReg b)).advancePc) ∨
    (∃ b c d, i = .read b c d ∧ t = (s.setReg d (s.memRead (baseOffAddr s c b))).advancePc) ∨
    (∃ b c, i = .bitrev b c ∧ t = (s.memWrite (regAddr s c) (bitReverse32 (s.getReg b).toNat)).advancePc) := by
  cases i with
  | load b c => rw [exec_load] at h; cases h; exact .inl ⟨b, c, rfl, rfl⟩
  | write b c => rw [exec_write] at h; cases h; exact .inr (.inl ⟨b, c, rfl, rfl⟩)
  | read b c d => rw [exec_read] at h; cases h; exact .inr (.inr (.inl ⟨b, c, d, rfl, rfl⟩))
  | bitrev b c => rw [exec_bitrev] at h; cases h; exact .inr (.inr (.inr ⟨b, c, rfl, rfl⟩))

/-- Fewer than 5 bytes are no word. -/
theorem takeWord_eq_none (l : List Byte) : takeWord l = none ↔ l.length < 5 := by
  match l with
  | [] | [_] | [_, _] | [_, _, _] | [_, _, _, _] => simp [takeWord]
  | _ :: _ :: _ :: _ :: _ :: _ => simp [takeWord]

/-- A fetch finds no word exactly where fewer than 5 image bytes remain (R81). -/
theorem fetch_eq_none (s : State) : s.fetch = none ↔ s.image.length < s.pc + 5 := by
  simp only [State.fetch, Option.map_eq_none_iff, takeWord_eq_none, List.length_drop]
  omega

theorem step_running (h : s.status = .running) : step s = runningStep s := by simp [step, loopStep, h]

theorem runningStep_none (h : s.fetch = none) : runningStep s = .next (s.halt .haltedComplete) := by
  simp [runningStep, h]

theorem runningStep_unknown {w : InstrWord} {tag : BitVec 5} (h : s.fetch = some w) (d : decode w = .unknownOpcode tag) :
    runningStep s = .next (s.halt .haltedUnknownOpcode) := by simp [runningStep, h, d]

theorem runningStep_instr {w : InstrWord} (h : s.fetch = some w) (d : decode w = .instr i) :
    runningStep s = exec i s := by simp [runningStep, h, d]

/-- What a step can do (R80 to R86). -/
theorem step_cases (h : step s = .next t) :
    (s.status ≠ .running ∧ t = s) ∨
    (s.status = .running ∧ s.fetch = none ∧ t = s.halt .haltedComplete) ∨
    (s.status = .running ∧ (∃ w tag, s.fetch = some w ∧ decode w = .unknownOpcode tag) ∧
      t = s.halt .haltedUnknownOpcode) ∨
    (s.status = .running ∧ ∃ w i, s.fetch = some w ∧ decode w = .instr i ∧ exec i s = .next t) := by
  unfold step loopStep at h
  cases hs : s.status with
  | haltedComplete => rw [hs] at h; cases h; exact .inl ⟨by simp, rfl⟩
  | haltedUnknownOpcode => rw [hs] at h; cases h; exact .inl ⟨by simp, rfl⟩
  | running =>
    simp only [hs, runningStep] at h
    cases hf : s.fetch with
    | none => simp only [hf] at h; cases h; exact .inr (.inl ⟨rfl, rfl, rfl⟩)
    | some w =>
      simp only [hf] at h
      cases hd : decode w with
      | unknownOpcode tag => simp only [hd] at h; cases h; exact .inr (.inr (.inl ⟨rfl, ⟨w, tag, rfl, hd⟩, rfl⟩))
      | instr i => simp only [hd] at h; exact .inr (.inr (.inr ⟨rfl, w, i, rfl, hd, h⟩))

end Sys2Proof.Machine
end

