-- ==== Sys2Proof/Laws/Codec.lean ====
section
/-!
SUPPORT. The codec: decode by its tag, the fields of a word given as a number, and the bytes of a word.
-/

namespace Sys2Proof

theorem decode_load {w : InstrWord} (h : tagOf w = 15#5) :
    decode w = .instr (.load (w.extractLsb' 5 5) (w.extractLsb' 10 21)) := by simp [decode, h]

theorem decode_write {w : InstrWord} (h : tagOf w = 8#5) :
    decode w = .instr (.write (w.extractLsb' 5 5) (w.extractLsb' 10 27)) := by simp [decode, h]

theorem decode_read {w : InstrWord} (h : tagOf w = 17#5) :
    decode w = .instr (.read (w.extractLsb' 5 13) (w.extractLsb' 18 5) (w.extractLsb' 23 5)) := by simp [decode, h]

theorem decode_bitrev {w : InstrWord} (h : tagOf w = 25#5) :
    decode w = .instr (.bitrev (w.extractLsb' 5 5) (w.extractLsb' 10 5)) := by simp [decode, h]

theorem decode_unknown {w : InstrWord} (h : tagOf w ≠ 15#5 ∧ tagOf w ≠ 8#5 ∧ tagOf w ≠ 17#5 ∧ tagOf w ≠ 25#5) :
    decode w = .unknownOpcode (tagOf w) := by simp [decode, h]

/-- The five cases of a word (R58). -/
theorem tag_cases (w : InstrWord) :
    tagOf w = 15#5 ∨ tagOf w = 8#5 ∨ tagOf w = 17#5 ∨ tagOf w = 25#5 ∨
      (tagOf w ≠ 15#5 ∧ tagOf w ≠ 8#5 ∧ tagOf w ≠ 17#5 ∧ tagOf w ≠ 25#5) := by tauto

/-- A field of a word given as a number. -/
theorem extract_ofNat (n lo k : Nat) (h : lo + k ≤ 40) :
    (BitVec.ofNat 40 n).extractLsb' lo k = BitVec.ofNat k (n / 2 ^ lo) := by
  apply BitVec.eq_of_getLsbD_eq
  intro i hi
  simp only [BitVec.getLsbD_extractLsb', BitVec.getLsbD_ofNat, hi, decide_true, Bool.true_and, ← Nat.shiftRight_eq_div_pow,
    Nat.testBit_shiftRight]
  simp [show lo + i < 40 by omega]

/-- An encoded kind carries its tag (R51, R52, R59). -/
theorem tagOf_encodeFields (r : RawInstr) : tagOf (encodeFields r) = r.kind.tag := by
  obtain ⟨k, b, c, d⟩ := r
  cases k <;> simp only [tagOf, encodeFields, maskN, Kind.tag] <;> rw [extract_ofNat _ _ _ (by omega)] <;>
    · apply BitVec.eq_of_toNat_eq
      simp
      omega

end Sys2Proof
end

