-- ==== Sys2Proof/Laws/HostPort.lean ====
section
/-!
SUPPORT. What booting can answer, said once, and how a run of n + 1 steps begins.
-/

namespace Sys2Proof.Machine

/-- A boot that starts: legal parameters, and the fresh state or a legal preset of it (R24, R152). -/
theorem boot_cases {cfg : Config} {image : List Byte} {preset : Option Preset} {s : State}
    (h : boot cfg image preset = .started s) :
    cfg.Legal ∧ (s = freshState cfg image ∨ ∃ p : Preset, preset = some p ∧ p.legal cfg = true ∧
      s = (freshState cfg image).applyPreset p) := by
  unfold boot at h
  split at h
  · next legal =>
    cases preset with
    | none => injection h with h; exact ⟨legal, .inl h.symm⟩
    | some p =>
      by_cases hp : p.legal cfg = true
      · simp only [hp, if_true] at h
        injection h with h
        exact ⟨legal, .inr ⟨p, rfl, hp, h.symm⟩⟩
      · simp [hp] at h
  · cases h

variable (cfg : Config) (image : List Byte) (s : State) (p : Preset)

@[simp] theorem freshState_pc : (freshState cfg image).pc = 0 := rfl
@[simp] theorem freshState_status : (freshState cfg image).status = .running := rfl
@[simp] theorem freshState_mem : (freshState cfg image).mem = [] := rfl
@[simp] theorem freshState_image : (freshState cfg image).image = image := rfl
@[simp] theorem freshState_cfg : (freshState cfg image).cfg = cfg := rfl

@[simp] theorem applyPreset_pc : (s.applyPreset p).pc = s.pc := by simp only [State.applyPreset]
@[simp] theorem applyPreset_status : (s.applyPreset p).status = s.status := by simp only [State.applyPreset]
@[simp] theorem applyPreset_mem : (s.applyPreset p).mem = Memory.ofCells 0 p.cells := by simp only [State.applyPreset]
@[simp] theorem applyPreset_image : (s.applyPreset p).image = s.image := by simp only [State.applyPreset]
@[simp] theorem applyPreset_cfg : (s.applyPreset p).cfg = s.cfg := by simp only [State.applyPreset]

/-- A preset register reads as the value given for it (R24). -/
theorem applyPreset_getReg (r : RegIdx) : (s.applyPreset p).getReg r = BitVec.ofNat 32 (p.regs.getD r.toNat 0) := by
  simp [State.applyPreset, State.getReg]

/-- A run of n + 1 steps is a step and a run of n steps. -/
theorem run_succ (n : Nat) {s t : State} (h : step s = .next t) :
    Sys2Proof.core.run (n + 1) s = Sys2Proof.core.run n t := by
  have e : Sys2Proof.core.step s = .next t := h
  simp only [Host.Core.run, e]

theorem run_zero {s t : State} (h : Sys2Proof.core.run 0 s = .next t) : t = s := by
  have e : (Host.Outcome.next s : Host.Outcome State Fault Refusal) = .next t := h
  injection e with e
  exact e.symm

end Sys2Proof.Machine
end

