-- ==== Sys2Proof/Laws/PerInstr.lean ====
section
/-!
SUPPORT. What holds of every instruction as syntax, one lemma per constructor: a decoded instruction's fields are within
their widths, masking them changes nothing, and its word carries its kind's tag.
-/

namespace Sys2Proof.Laws.Encoding

open Sys2Proof

/-- Well formed, unchanged by masking, and tagged in bits [4:0] of its word (spec/30_encoding.md R51, R52, R60). -/
def Statement (i : Instr) : Prop :=
  i.toRaw.wellFormed = true ∧ i.toRaw.toInstr = i ∧ tagOf (encode i) = i.kind.tag

theorem load (b : RegIdx) (c : BitVec 21) : Statement (.load b c) := by
  refine ⟨?_, ?_, ?_⟩
  · simp [Instr.toRaw, RawInstr.wellFormed, RawInstr.bFits, RawInstr.cFits, RawInstr.dFits, Kind.bWidth, Kind.cWidth,
      Kind.dWidth, b.isLt, c.isLt]
  · simp [Instr.toRaw, RawInstr.toInstr]
  · apply BitVec.eq_of_toNat_eq
    simp [tagOf, encode, encodeFields, Instr.toRaw, Instr.kind, Kind.tag, maskN]
    omega

theorem write (b : RegIdx) (c : BitVec 27) : Statement (.write b c) := by
  refine ⟨?_, ?_, ?_⟩
  · simp [Instr.toRaw, RawInstr.wellFormed, RawInstr.bFits, RawInstr.cFits, RawInstr.dFits, Kind.bWidth, Kind.cWidth,
      Kind.dWidth, b.isLt, c.isLt]
  · simp [Instr.toRaw, RawInstr.toInstr]
  · apply BitVec.eq_of_toNat_eq
    simp [tagOf, encode, encodeFields, Instr.toRaw, Instr.kind, Kind.tag, maskN]
    omega

theorem read (b : BitVec 13) (c d : RegIdx) : Statement (.read b c d) := by
  refine ⟨?_, ?_, ?_⟩
  · simp [Instr.toRaw, RawInstr.wellFormed, RawInstr.bFits, RawInstr.cFits, RawInstr.dFits, Kind.bWidth, Kind.cWidth,
      Kind.dWidth, b.isLt, c.isLt, d.isLt]
  · simp [Instr.toRaw, RawInstr.toInstr]
  · apply BitVec.eq_of_toNat_eq
    simp [tagOf, encode, encodeFields, Instr.toRaw, Instr.kind, Kind.tag, maskN]
    omega

theorem bitrev (b c : RegIdx) : Statement (.bitrev b c) := by
  refine ⟨?_, ?_, ?_⟩
  · simp [Instr.toRaw, RawInstr.wellFormed, RawInstr.bFits, RawInstr.cFits, RawInstr.dFits, Kind.bWidth, Kind.cWidth,
      Kind.dWidth, b.isLt, c.isLt]
  · simp [Instr.toRaw, RawInstr.toInstr]
  · apply BitVec.eq_of_toNat_eq
    simp [tagOf, encode, encodeFields, Instr.toRaw, Instr.kind, Kind.tag, maskN]
    omega

end Sys2Proof.Laws.Encoding
end

