-- ==== Sys2Proof/Tests/Slice0.lean ====
section
/-!
SUPPORT. Small tests whose expected results are the spec's (spec/95_test_vectors.md: E, V and P numbers), and for every
statement with hypotheses a named witness that meets them.
-/

namespace Sys2Proof.Tests

open Sys2Proof Sys2Proof.Machine

/-! ## Helpers -/

/-- The state an outcome leads to. -/
def after (o : Host.Outcome State Fault Refusal) : State :=
  match o with
  | .next s => s
  | .fault f => nomatch f
  | .refused _ => State.reset

/-- A small machine: `size` cells, an image, registers 0 to 3, and pc 0. -/
def small (size : Nat) (image : List Byte) (x0 x1 x2 x3 : Word) (mem : Memory) : State :=
  { State.reset with
    cfg := ⟨size, true⟩, image := image, mem := mem
    regs := ((((Vector.replicate 32 0#32).set 0 x0).set 1 x1).set 2 x2).set 3 x3 }

/-- The image bytes of LOAD 3, 5 (E1). -/
def load35 : List Byte := [0x6F#8, 0x14#8, 0#8, 0#8, 0#8]

/-- Five bytes with tag 0 (V13, V72). -/
def unknown5 : List Byte := [0#8, 0#8, 0#8, 0#8, 0#8]

/-! ## Well-formedness: an ill-formed term for each check -/

theorem test_wellFormed_widest : RawInstr.wellFormed ⟨.read, 8191, 31, 31⟩ = true := by decide
theorem test_illFormed_b : RawInstr.wellFormed ⟨.load, 32, 0, 0⟩ = false ∧ RawInstr.bFits ⟨.load, 32, 0, 0⟩ = false := by decide
theorem test_illFormed_c : RawInstr.wellFormed ⟨.load, 0, 2097152, 0⟩ = false ∧ RawInstr.cFits ⟨.load, 0, 2097152, 0⟩ = false := by
  decide
theorem test_illFormed_d : RawInstr.wellFormed ⟨.read, 0, 0, 32⟩ = false ∧ RawInstr.dFits ⟨.read, 0, 0, 32⟩ = false := by decide
theorem test_illFormed_unused_d : RawInstr.wellFormed ⟨.bitrev, 0, 0, 1⟩ = false := by decide

/-! ## Decoding: each family's word bit by bit, from R53 to R56 -/

/-- LOAD 3, 5 (E1): unused 0, c = 5, b = 3, tag 01111. -/
theorem test_decode_load_bits : decode 0b000000000_000000000000000000101_00011_01111#40 = .instr (.load 3#5 5#21) := by decide
/-- WRITE 1, 9999 (E3): unused 0, c = 9999, b = 1, tag 01000. -/
theorem test_decode_write_bits : decode 0b000_000000000000010011100001111_00001_01000#40 = .instr (.write 1#5 9999#27) := by decide
/-- READ 4, 2, 2053 (V56): unused 0, d = 4, c = 2, b = 2053, tag 10001. -/
theorem test_decode_read_bits :
    decode 0b000000000000_00100_00010_0100000000101_10001#40 = .instr (.read 2053#13 2#5 4#5) := by decide
/-- BITREV 1, 2 (V11): unused 0, c = 2, b = 1, tag 11001. -/
theorem test_decode_bitrev_bits : decode 0b0000000000000000000000000_00010_00001_11001#40 = .instr (.bitrev 1#5 2#5) := by decide
/-- V14 to V16. -/
theorem test_decode_unknown : decode 0xFFFFFFFFFF#40 = .unknownOpcode 31#5 ∧ decode 0x10#40 = .unknownOpcode 16#5 ∧
    decode 0x09#40 = .unknownOpcode 9#5 := by decide
/-- V18 to V21: unused bits set. -/
theorem test_decode_unused_bits : decode 0xFFFFFFFFE8#40 = .instr (.write 31#5 134217727#27) ∧
    decode 0xFFFFFFFFF1#40 = .instr (.read 8191#13 31#5 31#5) ∧ decode 0xFFFFFFFFF9#40 = .instr (.bitrev 31#5 31#5) ∧
    decode 0x800000000F#40 = .instr (.load 0#5 0#21) := by decide
/-- V1 to V6. -/
theorem test_encode_load_write : encodeFields ⟨.load, 31, 0x1FFFFF, 0⟩ = 0x007FFFFFEF#40 ∧
    encodeFields ⟨.load, 32, 5, 0⟩ = 0x140F#40 ∧ encodeFields ⟨.load, 3, 2 ^ 21 + 7, 0⟩ = 0x1C6F#40 ∧
    encodeFields ⟨.write, 31, 2 ^ 27 - 1, 0⟩ = 0x1FFFFFFFE8#40 ∧ encodeFields ⟨.write, 1, 2 ^ 27, 0⟩ = 0x28#40 := by decide
/-- V7 to V11. -/
theorem test_encode_read_bitrev : encodeFields ⟨.read, 8191, 31, 31⟩ = 0x000FFFFFF1#40 ∧
    encodeFields ⟨.read, 8192, 2, 1⟩ = 0x0000880011#40 ∧ encodeFields ⟨.read, 1, 0, 32⟩ = 0x31#40 ∧
    encodeFields ⟨.bitrev, 31, 31, 0⟩ = 0x7FF9#40 ∧ encodeFields ⟨.bitrev, 1, 2, 0⟩ = 0x0839#40 := by decide
/-- The bytes of V5, in order, and back; a partial word is refused by name (R81). -/
theorem test_bytes : bytesOfWord 0x1FFFFFFFE8#40 = [0xE8#8, 0xFF#8, 0xFF#8, 0xFF#8, 0x1F#8] ∧
    decodeBytes [0xE8#8, 0xFF#8, 0xFF#8, 0xFF#8, 0x1F#8, 7#8] = .instr (.write 31#5 134217727#27) [7#8] ∧
    decodeBytes [0x6F#8, 0x14#8, 0#8, 0#8] = .partialWord := by decide
theorem test_decodeTableWord : decodeTableWord 40 0x7FF9 = some (.bitrev 31#5 31#5) ∧ decodeTableWord 8 0x9939 = some (.bitrev 1#5 0#5) ∧
    decodeTableWord 40 0 = none := by decide

/-! ## One step of each instruction -/

/-- E1: LOAD 3, 5 as the first instruction after reset. -/
theorem test_load_step :
    let t := after (step (State.reset.withFetchWord 40 0x146F))
    t.getReg 3#5 = 5#32 ∧ t.pc = 5 ∧ t.mem = [] ∧ t.status = .running := by decide
/-- V31, V32: the largest immediate; an old value overwritten, register 0 written. -/
theorem test_load_wide : (after (exec (.load 31#5 2097151#21) State.reset)).getReg 31#5 = 0x001FFFFF#32 ∧
    (after (exec (.load 0#5 0#21) (small 16 [] 0xFFFFFFFF#32 0#32 0#32 0#32 []))).getReg 0#5 = 0#32 := by decide
/-- V40, V45: a store, and a store of 0 over a value. -/
theorem test_write_stores : (after (exec (.write 1#5 10#27) (small 1024 [] 0#32 100#32 0#32 0#32 []))).mem = [(10, 100#32)] ∧
    (after (exec (.write 2#5 5#27) (small 1024 [] 0#32 0#32 0#32 0#32 [(5, 3#32)]))).mem = [] := by decide
/-- V41, V42, V44: the last cell, the first beyond it, and a memory larger than WRITE's reach. -/
theorem test_write_bounds : (after (exec (.write 0#5 1023#27) (small 1024 [] 7#32 0#32 0#32 0#32 []))).mem = [(1023, 7#32)] ∧
    (after (exec (.write 0#5 1024#27) (small 1024 [] 7#32 0#32 0#32 0#32 []))).mem = [] ∧
    (after (exec (.write 1#5 134217727#27) (small (2 ^ 27 + 1) [] 0#32 9#32 0#32 0#32 []))).mem = [(134217727, 9#32)] := by decide
/-- V52, V53: one past the end gives 0 and loses the old value; destination and base the same. -/
theorem test_read_forms : (after (exec (.read 1#13 2#5 3#5) (small 1024 [] 0#32 0#32 1023#32 9#32 [(1023, 42#32)]))).getReg 3#5 = 0#32 ∧
    (after (exec (.read 0#13 2#5 2#5) (small 1024 [] 0#32 0#32 10#32 0#32 [(10, 100#32)]))).getReg 2#5 = 100#32 := by decide
/-- V55, V56: the largest offset; an address sum past 2^32, which does not wrap to cell 5. -/
theorem test_read_sum : (after (exec (.read 8191#13 0#5 1#5) (small 8192 [] 0#32 0#32 0#32 0#32 [(8191, 6#32)]))).getReg 1#5 = 6#32 ∧
    (after (exec (.read 2053#13 2#5 3#5) (small 1024 [] 0#32 0#32 0xFFFFF800#32 1#32 [(5, 77#32)]))).getReg 3#5 = 0#32 := by decide
/-- V60, V62: one register as value and address; an address out of bounds. -/
theorem test_bitrev_forms : (after (exec (.bitrev 0#5 0#5) (small 1024 [] 1#32 0#32 0#32 0#32 []))).mem = [(1, 0x80000000#32)] ∧
    (after (exec (.bitrev 1#5 2#5) (small 1024 [] 0#32 5#32 1024#32 0#32 []))).mem = [] := by decide +kernel
/-- The table of section 2.5, and V61. -/
theorem test_bitReverse32 : bitReverse32 0x12345678 = 0x1E6A2C48#32 ∧ bitReverse32 0x1FFFFF = 0xFFFFF800#32 ∧
    bitReverse32 0x400 = 0x00200000#32 ∧ bitReverse32 0x100000001 = 0x80000000#32 := by decide +kernel

/-! ## The loop, the host, the assembler -/

/-- V70 to V72: an empty image, a partial word, an unknown tag. -/
theorem test_halts : (after (step State.reset)).status = .haltedComplete ∧
    (after (step (small 4 [0x6F#8, 0x14#8, 0#8, 0#8] 0#32 0#32 0#32 0#32 []))) =
      { small 4 [0x6F#8, 0x14#8, 0#8, 0#8] 0#32 0#32 0#32 0#32 [] with status := .haltedComplete } ∧
    (after (step (small 4 unknown5 0#32 0#32 0#32 0#32 []))).status = .haltedUnknownOpcode := by decide
/-- V71 with a partial word whose tag is unknown: the end of the image comes first (R133). -/
theorem test_partial_word_never_decoded : (after (step (small 4 [0#8] 0#32 0#32 0#32 0#32 []))).status = .haltedComplete := by decide
/-- V80, V81, V82, V83. -/
theorem test_readOut : State.reset.readOut 0 0 = .rows [(0, some 0#32)] ∧ State.reset.readOut 5 3 = .invalidRange ∧
    State.reset.readOut (-1) 2 = .invalidRange ∧ (small 1024 [] 0#32 0#32 0#32 0#32 [(1023, 42#32)]).readOut 1022 1025 =
      .rows [(1022, some 0#32), (1023, some 42#32), (1024, none), (1025, none)] ∧
    State.reset.hostReadOut 0 0 = .coreRunning := by decide
/-- The lines of V83. -/
theorem test_dump : dumpLines [(1023, some 42#32), (1024, none)] = ["Address,Value".toList, "1023,42".toList, "1024,".toList] := by
  decide
/-- R24: 32 registers and 2 cells are taken; a value of 2^32 and 3 cells are not; MEM_SIZE 0 is refused (R5). -/
theorem test_boot : (boot ⟨2, false⟩ [] (some ⟨List.replicate 32 7, [0, 9]⟩)) =
      .started { freshState ⟨2, false⟩ [] with regs := Vector.replicate 32 7#32, mem := [(1, 9#32)] } ∧
    boot ⟨2, false⟩ [] (some ⟨List.replicate 32 0, [0, 2 ^ 32]⟩) = .refused .illegalPreset ∧
    boot ⟨2, false⟩ [] (some ⟨List.replicate 32 0, [0, 0, 0]⟩) = .refused .illegalPreset ∧
    boot ⟨0, false⟩ [] none = .refused .illegalMemSize := by decide +kernel
/-- R139: the same unknown opcode with STRICT and without. -/
theorem test_exit : (reportOf 0 0 { small 4 unknown5 0#32 0#32 0#32 0#32 [] with status := .haltedUnknownOpcode }).exitNonzero = true ∧
    (reportOf 0 0 { State.reset with status := .haltedUnknownOpcode }).exitNonzero = false := by decide
/-- E6: a malformed line is numbered and adds no bytes. -/
theorem test_assemble_E6 : (assemble "LOAD 1\nLOAD 3, 5".toList).image = load35 ∧ (assemble "LOAD 1\nLOAD 3, 5".toList).failed = [1] := by
  decide +kernel
/-- READ's operands are reordered (R68); case and separators do not matter; binary literals; a late `;` is malformed. -/
theorem test_assembleLine : assembleLine " read 0,2 ,,\t0b101 ".toList = .instr ⟨.read, 5, 2, 0⟩ ∧
    assembleLine "  ; note".toList = .nothing ∧ assembleLine "LOAD 1, 2 ;".toList = .malformed ∧
    assembleLine "LOAD 1, -2".toList = .malformed ∧ assembleLine "LOAD 1, 0x2".toList = .malformed ∧
    assembleLine ",".toList = .malformed := by decide +kernel
/-- The ports at the point where a 32-bit sum would wrap (V56). -/
theorem test_datapath : (datapathStep ((small 1024 [] 0#32 0#32 0xFFFFF800#32 1#32 [(5, 77#32)]).withFetchWord 40 0x00020900B1)).getReg 4#5
    = 0#32 ∧ aluAddrAdd 0xFFFFF800#32 2053#13 = 0x100000005#33 := by decide

/-! ## Witnesses: the hypotheses of each statement are met -/

theorem witness_EncodeDecodeClearsUnusedBits : decode 0xFFFFFFFFEF#40 = .instr (.load 31#5 2097151#21) ∧
    decode 0x007FFFFFEF#40 = .instr (.load 31#5 2097151#21) := by decide
theorem witness_UnusedBitsAreIgnored : tagOf 0x800000000F#40 = Kind.load.tag ∧ (0x800000000F#40 : InstrWord) ≠ 0x000000000F#40 ∧
    0x800000000F#40 &&& ~~~Kind.load.unusedMask = 0x000000000F#40 &&& ~~~Kind.load.unusedMask := by decide
theorem witness_DecodeReadsTheFields : (0x0F#40).extractLsb' 0 5 = 15#5 ∧ (0x08#40).extractLsb' 0 5 = 8#5 ∧
    (0x11#40).extractLsb' 0 5 = 17#5 ∧ (0x19#40).extractLsb' 0 5 = 25#5 ∧ ((0x1F#40).extractLsb' 0 5 ≠ 15#5 ∧
    (0x1F#40).extractLsb' 0 5 ≠ 8#5 ∧ (0x1F#40).extractLsb' 0 5 ≠ 17#5 ∧ (0x1F#40).extractLsb' 0 5 ≠ 25#5) := by decide
/-- Also for UnknownOpcodeHaltsTheRun: the word's tag 0 is none of the four. -/
theorem witness_UnassignedTagsAreRejected : (small 4 unknown5 0#32 0#32 0#32 0#32 []).status = .running ∧
    (small 4 unknown5 0#32 0#32 0#32 0#32 []).fetch = some 0#40 ∧ decode 0#40 = .unknownOpcode 0#5 := by decide
theorem witness_UnknownOpcodeHaltsTheRun : (small 4 unknown5 0#32 0#32 0#32 0#32 []).fetch = some 0#40 ∧
    ((0#40 : InstrWord).toNat % 32 ≠ 15 ∧ (0#40 : InstrWord).toNat % 32 ≠ 8 ∧ (0#40 : InstrWord).toNat % 32 ≠ 17 ∧
    (0#40 : InstrWord).toNat % 32 ≠ 25) := by decide
/-- Both clauses at their border: 4 bytes left and 5 bytes left. -/
theorem witness_FetchIsLittleEndian : (small 4 [1#8, 2#8, 3#8, 4#8] 0#32 0#32 0#32 0#32 []).image.length < 0 + 5 ∧
    (small 4 load35 0#32 0#32 0#32 0#32 []).image[0 + 4]? = some 0#8 ∧ load35[0]? = some 0x6F#8 ∧ load35[1]? = some 0x14#8 ∧
    load35[2]? = some 0#8 ∧ load35[3]? = some 0#8 := by decide
theorem witness_EncodedBytesAreFetchedBack :
    let s := { small 4 (unknown5 ++ bytesOfWord (encode (.load 3#5 5#21)) ++ [9#8]) 0#32 0#32 0#32 0#32 [] with pc := 5 }
    s.image = unknown5 ++ bytesOfWord (encode (.load 3#5 5#21)) ++ [9#8] ∧ s.pc = unknown5.length := by decide
theorem witness_RegisterFileReadsLastWrite : (0#5 : RegIdx) ≠ 31#5 := by decide
/-- Also for MemWriteIsBoundsChecked, at the border. -/
theorem witness_MemReadIsBoundsChecked : 1023 < State.reset.cfg.memSize ∧ State.reset.cfg.memSize ≤ 1024 ∧ 1022 ≠ 1023 := by decide
theorem witness_CanonicalMemoriesAreEqual : Memory.wf [(3, 1#32), (7, 2#32)] = true ∧
    Memory.wf (Memory.write [(7, 2#32)] 3 1#32) = true := by decide
/-- The hypotheses of all four instruction rules: a word of each tag, literals, and addresses at the border of memory. -/
theorem witness_InstructionRules : tagOf 0x0F#40 = 15#5 ∧ tagOf 0x08#40 = 8#5 ∧ tagOf 0x11#40 = 17#5 ∧ tagOf 0x19#40 = 25#5 ∧
    literalValue "31".toList = some 31 ∧ literalValue "0b11".toList = some 3 ∧ literalValue "0".toList = some 0 ∧
    absAddr 1023#27 < State.reset.cfg.memSize ∧ State.reset.cfg.memSize ≤ absAddr 1024#27 ∧
    baseOffAddr State.reset 0#5 1023#13 < State.reset.cfg.memSize ∧
    State.reset.cfg.memSize ≤ baseOffAddr State.reset 0#5 1024#13 ∧ (1#5 : RegIdx) ≠ 0#5 ∧
    regAddr (small 4 [] 3#32 4#32 0#32 0#32 []) 0#5 < 4 ∧ 4 ≤ regAddr (small 4 [] 3#32 4#32 0#32 0#32 []) 1#5 := by decide +kernel
theorem witness_ReadAddressIsExactSum : State.reset.cfg.Legal ∧
    2 ^ 32 ≤ ((small 1024 [] 0#32 0#32 0xFFFFF800#32 0#32 []).getReg 2#5).toNat + (2048#13).toNat := by decide
theorem witness_BitReverse32 : (31 : Nat) < 32 ∧ (2 ^ 32 - 1 : Nat) < 2 ^ 32 := by decide
theorem witness_SameRegisterFormsUseOldValue : ((small 4 [] 3#32 0#32 0#32 0#32 []).getReg 0#5).toNat <
    (small 4 [] 3#32 0#32 0#32 0#32 []).cfg.memSize ∧ (3#27 : BitVec 27).toNat < (small 4 [] 3#32 0#32 0#32 0#32 []).cfg.memSize := by decide
theorem witness_RegistersReadAndWrittenAreThoseNamed :
    let s := small 4 [] 3#32 5#32 0#32 0#32 []
    let s' := small 4 [] 3#32 6#32 0#32 0#32 []
    s' = { s with regs := s'.regs } ∧ (∀ r ∈ sourceRegs (.write 0#5 1#27), s'.getReg r = s.getReg r) ∧ s.getReg 1#5 ≠ s'.getReg 1#5 ∧
    exec (.write 0#5 1#27) s = .next (after (exec (.write 0#5 1#27) s)) := ⟨rfl, by decide, by decide, rfl⟩
/-- A step that stores 5 with WRITE 1, 3, and the changed cell. -/
theorem witness_OnlyStoresChangeMemory :
    let s := (small 4 [] 0#32 5#32 0#32 0#32 []).placeWord (encode (.write 1#5 3#27))
    step s = .next (after (step s)) ∧ (after (step s)).memRead 3 ≠ s.memRead 3 := ⟨rfl, by decide⟩
theorem witness_ReadGivesTheValueLastWritten :
    let s := small 4 [] 3#32 5#32 0#32 0#32 []
    let t := after (exec (.write 1#5 3#27) s)
    let u := after (exec (.load 2#5 9#21) t)
    (3#27 : BitVec 27).toNat < s.cfg.memSize ∧ exec (.write 1#5 3#27) s = .next t ∧ exec (.load 2#5 9#21) t = .next u ∧
    storeAddr (.load 2#5 9#21) t ≠ some (3#27 : BitVec 27).toNat ∧ baseOffAddr u 0#5 0#13 = (3#27 : BitVec 27).toNat ∧
    exec (.read 0#13 0#5 3#5) u = .next (after (exec (.read 0#13 0#5 3#5) u)) :=
  ⟨by decide, rfl, rfl, by decide, by decide, rfl⟩
theorem witness_BitrevTwiceRestores :
    let s := small 4 [] 3#32 5#32 0#32 0#32 []
    let t := after (exec (.bitrev 1#5 0#5) s)
    let u := after (exec (.read 0#13 0#5 2#5) t)
    let v := after (exec (.bitrev 2#5 0#5) u)
    (s.getReg 0#5).toNat < s.cfg.memSize ∧ (2#5 : RegIdx) ≠ 0#5 ∧ exec (.bitrev 1#5 0#5) s = .next t ∧
    exec (.read 0#13 0#5 2#5) t = .next u ∧ exec (.bitrev 2#5 0#5) u = .next v ∧
    exec (.read 0#13 0#5 2#5) v = .next (after (exec (.read 0#13 0#5 2#5) v)) :=
  ⟨by decide, by decide, rfl, rfl, rfl, rfl⟩
/-- Also for PcAdvancesByFive: the step moves pc. -/
theorem witness_StepRunsTheDecodedInstruction :
    let s := small 4 load35 0#32 0#32 0#32 0#32 []
    s.status = .running ∧ decodeBytes (s.image.drop s.pc) = .instr (.load 3#5 5#21) [] ∧ step s = .next (after (step s)) ∧
    (after (step s)).pc ≠ s.pc := ⟨rfl, by decide, rfl, by decide⟩
theorem witness_EndOfImageCompletesTheRun :
    (small 4 [1#8, 2#8, 3#8, 4#8] 0#32 0#32 0#32 0#32 []).status = .running ∧
    (small 4 [1#8, 2#8, 3#8, 4#8] 0#32 0#32 0#32 0#32 []).image.length < 0 + 5 := by decide
/-- One state for each of the three outcomes. -/
theorem witness_StepChecksInOrder : (after (step (small 4 [] 0#32 0#32 0#32 0#32 []))).status = .haltedComplete ∧
    (after (step (small 4 unknown5 0#32 0#32 0#32 0#32 []))).status = .haltedUnknownOpcode ∧
    (after (step (small 4 load35 0#32 0#32 0#32 0#32 []))).status = .running ∧
    step (small 4 load35 0#32 0#32 0#32 0#32 []) = .next (after (step (small 4 load35 0#32 0#32 0#32 0#32 []))) :=
  ⟨by decide, by decide, by decide, rfl⟩
/-- Also for the halted clause of ResetGivesTheResetValues and of ExitReportFollowsStatus. -/
theorem witness_HaltedCoreStaysAsItIs : ({ State.reset with status := .haltedComplete } : State).status ≠ .running ∧
    ({ State.reset with status := .haltedComplete } : State).halted = true ∧
    step { State.reset with status := .haltedComplete } = .next { State.reset with status := .haltedComplete } :=
  ⟨by decide, by decide, rfl⟩
/-- Also for StrictChangesNoRun: a run of one step. -/
theorem witness_ImageAndParametersNeverChange :
    Sys2Proof.core.run 1 (small 4 load35 0#32 0#32 0#32 0#32 []) = .next (after (step (small 4 load35 0#32 0#32 0#32 0#32 []))) := rfl
theorem witness_InvariantKeptByEveryStep :
    let s := small 4 load35 0#32 0#32 0#32 0#32 [(3, 1#32)]
    s.Inv ∧ step s = .next (after (step s)) :=
  ⟨⟨by decide, by decide, by decide, by decide, by decide, nofun, nofun⟩, rfl⟩
/-- Also for PcStaysAlignedInsideTheImage, RunGoesThroughTheImageOnce, ExecuteReportsTheHaltedState and
AssembledProgramsRunToCompletion: boots that start, with a preset and without, and boots that are refused. -/
theorem witness_InvariantHoldsAfterBoot : boot ⟨4, true⟩ load35 none = .started (freshState ⟨4, true⟩ load35) ∧
    boot ⟨1, true⟩ load35 (some ⟨List.replicate 32 1, [2]⟩) =
      .started ((freshState ⟨1, true⟩ load35).applyPreset ⟨List.replicate 32 1, [2]⟩) ∧
    boot Config.default (assemble "LOAD 3, 5".toList).image none = .started (freshState Config.default load35) ∧
    boot ⟨0, true⟩ load35 none = .refused .illegalMemSize := by decide +kernel
theorem witness_PcStaysAlignedInsideTheImage :
    let t := freshState ⟨4, true⟩ load35
    Sys2Proof.core.run 0 t = .next t ∧ t.status = .running ∧ step t = .next (after (step t)) ∧ (after (step t)).pc ≠ t.pc :=
  ⟨rfl, rfl, rfl, by decide⟩
theorem witness_ControlIgnoresData :
    let s := small 4 load35 0#32 0#32 0#32 0#32 []
    let s' := small 9 load35 1#32 2#32 3#32 4#32 [(1, 1#32)]
    s'.image = s.image ∧ s'.pc = s.pc ∧ s'.status = s.status ∧ Sys2Proof.core.run 1 s = .next (after (step s)) ∧
    Sys2Proof.core.run 1 s' = .next (after (step s')) := ⟨rfl, rfl, rfl, rfl, rfl⟩
theorem witness_TrailingBytesAreNeverExecuted :
    let s := small 4 load35 0#32 0#32 0#32 0#32 []
    ([0x0F#8, 0x14#8, 0#8, 0#8] : List Byte).length < 5 ∧ s.image.length % 5 = 0 ∧ s.pc % 5 = 0 ∧
    Sys2Proof.core.run 1 s = .next (after (step s)) := ⟨by decide, by decide, by decide, rfl⟩
/-- A legal preset, and one with a value too large; the MEM_SIZEs just outside the legal range: each clause, at the border. -/
theorem witness_BootTakesExactlyLegalPresets : (⟨1, true⟩ : Config).Legal ∧
    ((List.replicate 32 (2 ^ 32 - 1)).length = 32 ∧ [2 ^ 32 - 1].length = 1 ∧ (∀ v ∈ List.replicate 32 (2 ^ 32 - 1), v < 2 ^ 32) ∧
      (∀ v ∈ [2 ^ 32 - 1], v < 2 ^ 32)) ∧ ¬(∀ v ∈ [2 ^ 32], v < 2 ^ 32) ∧
    ¬(⟨0, true⟩ : Config).Legal ∧ ¬(⟨2 ^ 32 + 1, true⟩ : Config).Legal ∧ (⟨2 ^ 32, false⟩ : Config).Legal := by decide
theorem witness_ReadOutListsEveryAddress : (1022 : Nat) ≤ 1025 ∧ 1023 < State.reset.cfg.memSize ∧ State.reset.cfg.memSize ≤ 1024 := by
  decide
theorem witness_OperandsMapOntoFields : literalValue "7".toList = some 7 ∧ kindOfMnemonic "Load".toList = some .load ∧
    kindOfMnemonic "write".toList = some .write ∧ kindOfMnemonic "rEAD".toList = some .read ∧
    kindOfMnemonic "BITREV".toList = some .bitrev ∧ ["1".toList].length ≠ operandCount .load := by decide +kernel
/-- A literal of each form, and tokens just outside both. -/
theorem witness_LiteralsReadBack : literalValue "0b10".toList ≠ none ∧ literalValue "007".toList = some 7 ∧
    literalValue "0b2".toList = none ∧ literalValue "12b".toList = none ∧ literalValue "b".toList = none ∧
    literalValue "0b".toList = none ∧ literalValue "1b1".toList = none ∧ literalValue [] = none := by decide +kernel
/-- The line `LOAD 3, 5` as parts: gaps that differ, none before the first token and none after the last. -/
theorem witness_TokensAreFoundAgain :
    let parts := [("LOAD".toList, [' ']), ("3".toList, [',', ' ']), ("5".toList, [])]
    (parts.flatMap fun p => p.1 ++ p.2) = "LOAD 3, 5".toList ∧
    (∀ p ∈ parts, p.1 ≠ [] ∧ (∀ c ∈ p.1, isSeparator c = false) ∧ ∀ c ∈ p.2, isSeparator c = true) ∧
    (∀ p ∈ parts.dropLast, p.2 ≠ []) ∧ "LOAD".toList ∈ tokens "LOAD 3, 5".toList :=
  ⟨by decide +kernel, by simp [isSeparator, isSpace], by simp, by decide +kernel⟩
theorem witness_BlankAndCommentLinesYieldNothing : (∀ c ∈ [' ', '\t'], isSpace c = true) ∧
    (∀ c ∈ [' ', ','], isSeparator c = true) ∧ ',' ∈ [' ', ','] :=
  ⟨List.all_eq_true.1 (by decide), List.all_eq_true.1 (by decide), by decide⟩
/-- Lines that meet the first clause's hypotheses: one for each of the three cases, and one that yields an instruction. -/
theorem witness_MalformedLinesAreNumbered : ∀ l ∈ ["ADD 1, 2".toList, "LOAD 1".toList, " LOAD 1, x".toList, "LOAD 1, 2".toList],
    stripLine l ≠ [] ∧ (stripLine l).head? ≠ some ';' ∧ (∃ m ops, tokens (stripLine l) = m :: ops) ∧
    (assembleLine l ≠ .malformed ↔ l = "LOAD 1, 2".toList) := by
  intro l hl
  simp only [List.mem_cons, List.not_mem_nil, or_false] at hl
  rcases hl with rfl | rfl | rfl | rfl <;> exact ⟨by decide +kernel, by decide +kernel, ⟨_, _, rfl⟩, by decide +kernel⟩
theorem witness_TextsAssembleOneAfterTheOther : '\n' ∉ "LOAD 1".toList ∧ assembleLine "LOAD 1".toList = .malformed := by decide +kernel

end Sys2Proof.Tests
end

