-- ==== Sys2Proof/Proofs/RegisterFile.lean ====
section
/-!
The register file (spec/10_state.md R10): read after write and frame, from the laws of `State.setReg`.
-/

namespace Sys2Proof.Machine

/-- Settles O10: both halves are the register file's read-after-write laws; no index, 0 included, is special to them. -/
theorem registerFileReadsLastWrite : Obligations.RegisterFileReadsLastWrite := by
  intro s i j v
  constructor
  · exact setReg_getReg_same s i v
  · intro ne
    exact setReg_getReg_other s v ne.symm

end Sys2Proof.Machine
end

