-- ==== Sys2Proof/Proofs/DataMemory.lean ====
section
/-!
Data memory (spec/20_memory.md): the load_store_unit's bounds check (R32 to R34), each side of the border as a rule of its
own, and the ranges the host's read-out refuses (R46).
-/

namespace Sys2Proof.Machine

section BoundsCheck
variable {s : State} {a : Nat}

theorem inBounds_eq_true_iff : s.inBounds a = true ↔ a < s.cfg.memSize := decide_eq_true_iff

theorem inBounds_eq_false_iff : s.inBounds a = false ↔ s.cfg.memSize ≤ a := decide_eq_false_iff_not.trans Nat.not_lt

theorem memRead_of_lt (h : a < s.cfg.memSize) : s.memRead a = s.mem.read a := if_pos (inBounds_eq_true_iff.2 h)

theorem memRead_of_le (h : s.cfg.memSize ≤ a) : s.memRead a = 0#32 := by
  simp [State.memRead, inBounds_eq_false_iff.2 h]

theorem memWrite_of_lt (h : a < s.cfg.memSize) (v : Word) : s.memWrite a v = { s with mem := s.mem.write a v } :=
  if_pos (inBounds_eq_true_iff.2 h)

theorem memWrite_of_le (h : s.cfg.memSize ≤ a) (v : Word) : s.memWrite a v = s :=
  memWrite_outOfBounds s a v (inBounds_eq_false_iff.2 h)

end BoundsCheck

/-- Settles O12: in bounds the store is one write of the memory list, whose read-after-write law gives the cell and its
frame; out of bounds it is no write. -/
theorem memWriteIsBoundsChecked : Obligations.MemWriteIsBoundsChecked := by
  intro s a v
  constructor
  · intro lt
    rw [memWrite_of_lt lt]
    refine ⟨?_, fun x ne => ?_, rfl⟩
    · exact (memory_read_write s.mem a a v).trans (if_pos rfl)
    · exact (memory_read_write s.mem a x v).trans (if_neg ne)
  · intro le
    exact memWrite_of_le le v

/-- Settles O11: one rule of the load for each side of the border. -/
theorem memReadIsBoundsChecked : Obligations.MemReadIsBoundsChecked :=
  fun _ _ => ⟨memRead_of_lt, memRead_of_le⟩

/-- Settles O45: the read-out's guard names exactly these three causes, and past the guard it answers rows. -/
theorem invalidRangesAreRefused : Obligations.InvalidRangesAreRefused := by
  intro s start stop
  unfold State.readOut
  split
  · next bad => exact iff_of_true rfl (by omega)
  · next ok => exact iff_of_false (by simp) (by omega)

end Sys2Proof.Machine
end

