-- ==== Sys2Proof/Proofs/Codec.lean ====
section
/-!
The codec (spec/30_encoding.md R58, R61): the tag selects the format a word is sliced by, and slicing an encoded word gives
back each field masked to its width.
-/

namespace Sys2Proof

/-- Settles O4: one decode law for each of the four tags, and one for every other tag. -/
theorem decodeReadsTheFields : Obligations.DecodeReadsTheFields := by
  intro w
  refine ⟨decode_load, decode_write, decode_read, decode_bitrev, ?_⟩
  intro notLoad notWrite notRead notBitrev
  exact decode_unknown ⟨notLoad, notWrite, notRead, notBitrev⟩

/-- A field sliced out of a packed number holds the value that was packed there, cut to the field's width. -/
theorem extract_ofNat_eq {lo k n v : Nat} (fits : lo + k ≤ 40) (packed : n / 2 ^ lo % 2 ^ k = v % 2 ^ k) :
    (BitVec.ofNat 40 n).extractLsb' lo k = BitVec.ofNat k v := by
  rw [extract_ofNat n lo k fits]
  exact BitVec.eq_of_toNat_eq (by simpa using packed)

/-- Decoding an encoded kind gives the kind with its fields masked to their widths (R61). -/
theorem decode_encodeFields (r : RawInstr) : decode (encodeFields r) = .instr r.toInstr := by
  have tagged := tagOf_encodeFields r
  obtain ⟨kind, b, c, d⟩ := r
  cases kind with
  | load =>
    rw [decode_load tagged]
    simp only [encodeFields, RawInstr.toInstr, maskN]
    rw [extract_ofNat_eq (v := b) (by omega) (by omega), extract_ofNat_eq (v := c) (by omega) (by omega)]
  | write =>
    rw [decode_write tagged]
    simp only [encodeFields, RawInstr.toInstr, maskN]
    rw [extract_ofNat_eq (v := b) (by omega) (by omega), extract_ofNat_eq (v := c) (by omega) (by omega)]
  | read =>
    rw [decode_read tagged]
    simp only [encodeFields, RawInstr.toInstr, maskN]
    rw [extract_ofNat_eq (v := b) (by omega) (by omega), extract_ofNat_eq (v := c) (by omega) (by omega),
      extract_ofNat_eq (v := d) (by omega) (by omega)]
  | bitrev =>
    rw [decode_bitrev tagged]
    simp only [encodeFields, RawInstr.toInstr, maskN]
    rw [extract_ofNat_eq (v := b) (by omega) (by omega), extract_ofNat_eq (v := c) (by omega) (by omega)]

/-- The fields of the masked instruction as numbers; a field the kind does not have has width 0 and so is 0. -/
theorem toRaw_toInstr (r : RawInstr) :
    r.toInstr.toRaw = ⟨r.kind, maskN r.kind.bWidth r.b, maskN r.kind.cWidth r.c, maskN r.kind.dWidth r.d⟩ := by
  obtain ⟨kind, b, c, d⟩ := r
  cases kind <;>
    simp [RawInstr.toInstr, Instr.toRaw, maskN, Kind.bWidth, Kind.cWidth, Kind.dWidth, Nat.mod_one]

/-- The per-instruction law of the encoding, for whichever instruction. -/
theorem encoding_statement (i : Instr) : Laws.Encoding.Statement i := by
  cases i with
  | load b c => exact Laws.Encoding.load b c
  | write b c => exact Laws.Encoding.write b c
  | read b c d => exact Laws.Encoding.read b c d
  | bitrev b c => exact Laws.Encoding.bitrev b c

/-- A decoded instruction's fields fit, so that masking them changes nothing (R60). -/
theorem toInstr_toRaw (i : Instr) : i.toRaw.toInstr = i := by
  obtain ⟨-, unmasked, -⟩ := encoding_statement i
  exact unmasked

/-- A decoded instruction comes back from its word. -/
theorem decode_encode (i : Instr) : decode (encode i) = .instr i := by
  rw [encode, decode_encodeFields, toInstr_toRaw]

/-- Settles O1: slicing an encoded word undoes the packing up to the mask, and the mask changes no decoded instruction. -/
theorem decodeEncodeRoundTrip : Obligations.DecodeEncodeRoundTrip :=
  ⟨fun r => ⟨decode_encodeFields r, toRaw_toInstr r⟩, decode_encode⟩

end Sys2Proof
end

