-- ==== Sys2Proof/Proofs/SourceFormat.lean ====
section
/-!
The assembler's source format (spec/30_encoding.md R68, R71, R72): which token lines are malformed, what the image holds,
and which lines are numbered as failed.
-/

namespace Sys2Proof.Machine

section Tokens
variable {m : List Char} {ops : List (List Char)} {k : Kind} {vs : List Nat}

/-- Each operand that is a literal gives one value. -/
theorem length_operandValues (values : operandValues ops = some vs) : vs.length = ops.length := by
  induction ops generalizing vs with
  | nil => cases values; rfl
  | cons t ts ih =>
    unfold operandValues at values
    split at values
    · next v ws _ rest => cases values; simp [ih rest]
    · cases values

/-- The operands have no values exactly when one of them is not a literal. -/
theorem operandValues_eq_none_iff : operandValues ops = none ↔ ∃ o ∈ ops, literalValue o = none := by
  induction ops with
  | nil => simp [operandValues]
  | cons t ts ih =>
    rw [List.exists_mem_cons_iff, ← ih]
    cases literal : literalValue t <;> cases rest : operandValues ts <;> simp [operandValues, literal, rest]

/-- The mapping of operands onto fields is defined at the kind's operand count alone (R68). -/
theorem mapOperands_eq_malformed_iff : mapOperands k vs = .malformed ↔ vs.length ≠ operandCount k := by
  match vs with
  | [] | [_] | [_, _] | [_, _, _] | _ :: _ :: _ :: _ :: _ => cases k <;> simp [mapOperands, operandCount]

/-- No operands make a line blank: a token line yields an instruction or is malformed. -/
theorem mapOperands_cases (k : Kind) (vs : List Nat) : mapOperands k vs = .malformed ∨ ∃ r, mapOperands k vs = .instr r := by
  unfold mapOperands
  split <;> simp

theorem parseTokens_of_values (mnemonic : kindOfMnemonic m = some k) (values : operandValues ops = some vs) :
    parseTokens (m :: ops) = mapOperands k vs := by simp [parseTokens, mnemonic, values]

theorem parseTokens_of_no_kind (bad : kindOfMnemonic m = none) : parseTokens (m :: ops) = .malformed := by
  simp [parseTokens, bad]

theorem parseTokens_of_no_values (bad : operandValues ops = none) : parseTokens (m :: ops) = .malformed := by
  cases h : kindOfMnemonic m <;> simp [parseTokens, h, bad]

/-- The three causes of a MalformedInstruction (R72). -/
theorem parseTokens_eq_malformed_iff : parseTokens (m :: ops) = .malformed ↔ kindOfMnemonic m = none ∨
    (∃ k, kindOfMnemonic m = some k ∧ ops.length ≠ operandCount k) ∨ ∃ o ∈ ops, literalValue o = none := by
  rw [← operandValues_eq_none_iff]
  cases mnemonic : kindOfMnemonic m with
  | none => simp [parseTokens_of_no_kind mnemonic]
  | some k =>
    cases values : operandValues ops with
    | none => simp [parseTokens_of_no_values values]
    | some vs =>
      rw [parseTokens_of_values mnemonic values, mapOperands_eq_malformed_iff, length_operandValues values]
      simp

/-- A token line that is not malformed yields an instruction. -/
theorem parseTokens_cases (m : List Char) (ops : List (List Char)) :
    parseTokens (m :: ops) = .malformed ∨ ∃ r, parseTokens (m :: ops) = .instr r := by
  cases mnemonic : kindOfMnemonic m with
  | none => exact .inl (parseTokens_of_no_kind mnemonic)
  | some k =>
    cases values : operandValues ops with
    | none => exact .inl (parseTokens_of_no_values values)
    | some vs =>
      rw [parseTokens_of_values mnemonic values]
      exact mapOperands_cases k vs

end Tokens

/-- Settles O53: the literals' values are the operand values that each kind maps, and a wrong count is one of the three
causes of a malformed line. -/
theorem operandsMapOntoFields : Obligations.OperandsMapOntoFields := by
  intro m t1 t2 t3 v1 v2 v3 h1 h2 h3
  have two : operandValues [t1, t2] = some [v1, v2] := by simp [operandValues, h1, h2]
  have three : operandValues [t1, t2, t3] = some [v1, v2, v3] := by simp [operandValues, h1, h2, h3]
  refine ⟨fun load => ?_, fun write => ?_, fun read => ?_, fun bitrev => ?_, fun k ops kind count => ?_⟩
  · rw [parseTokens_of_values load two, mapOperands]
  · rw [parseTokens_of_values write two, mapOperands]
  · rw [parseTokens_of_values read three, mapOperands]
  · rw [parseTokens_of_values bitrev two, mapOperands]
  · exact parseTokens_eq_malformed_iff.2 (.inr (.inl ⟨k, kind, count⟩))

/-- The bytes a line adds to the image (R71). -/
def LineResult.bytes : LineResult → List Byte
  | .nothing => []
  | .instr r => bytesOfWord (encodeFields r)
  | .malformed => []

/-- The image is made line by line. -/
theorem imageOfWords_wordsOf (rs : List LineResult) : imageOfWords (wordsOf rs) = rs.flatMap LineResult.bytes := by
  induction rs with
  | nil => rfl
  | cons r rs ih => cases r <;> simp [wordsOf, imageOfWords, LineResult.bytes, ← ih]

theorem image_assemble (text : List Char) :
    (assemble text).image = (sourceLines text).flatMap fun l => (assembleLine l).bytes := by
  simp [assemble, imageOfWords_wordsOf, List.flatMap_map]

/-- A line assembled to an instruction. -/
def LineResult.assembled : LineResult → Bool
  | .nothing => false
  | .instr _ => true
  | .malformed => false

theorem LineResult.length_bytes (r : LineResult) : r.bytes.length = if r.assembled then 5 else 0 := by
  cases r <;> rfl

/-- Each line that assembled adds one word, and no other line adds any. -/
theorem length_flatMap_bytes (ls : List (List Char)) :
    (ls.flatMap fun l => (assembleLine l).bytes).length = 5 * (ls.filter fun l => (assembleLine l).assembled).length := by
  induction ls with
  | nil => rfl
  | cons l ls ih =>
    rw [List.flatMap_cons, List.length_append, ih, LineResult.length_bytes, List.filter_cons]
    split
    · rw [List.length_cons]; omega
    · exact Nat.zero_add _

/-- Settles O57: the image is made line by line, a line that assembled adding one word's five bytes. -/
theorem imageIsTheAssembledWords : Obligations.ImageIsTheAssembledWords := by
  constructor
  · intro text
    rw [image_assemble]
    refine List.flatMap_congr fun l _ => ?_
    cases assembleLine l <;> rfl
  · intro text
    rw [image_assemble, length_flatMap_bytes]
    refine congrArg (fun ls => 5 * List.length ls) (List.filter_congr fun l _ => ?_)
    cases assembleLine l <;> rfl

/-- A line that is neither empty nor a comment is what its tokens parse to (R65, R66). -/
theorem assembleLine_of_head {l : List Char} (notEmpty : stripLine l ≠ []) (notComment : (stripLine l).head? ≠ some ';') :
    assembleLine l = parseTokens (tokens (stripLine l)) := by
  unfold assembleLine
  cases h : stripLine l with
  | nil => exact absurd h notEmpty
  | cons c cs =>
    have first : c ≠ ';' := by simpa [h] using notComment
    simp [first]

theorem mem_failedLines_cons (r : LineResult) (rs : List LineResult) (first n : Nat) :
    n ∈ failedLines first (r :: rs) ↔ (n = first ∧ r = .malformed) ∨ n ∈ failedLines (first + 1) rs := by
  cases r <;> simp [failedLines]

/-- The failed lines' numbers, counted on from `first`, are the places of the malformed results (R72). -/
theorem mem_failedLines (rs : List LineResult) (first n : Nat) :
    n ∈ failedLines first rs ↔ ∃ i, n = first + i ∧ rs[i]? = some .malformed := by
  induction rs generalizing first with
  | nil => simp [failedLines]
  | cons r rs ih =>
    rw [mem_failedLines_cons, ih]
    refine .trans ?_ Nat.or_exists_add_one
    simp [Nat.add_assoc, Nat.add_comm 1]

theorem mem_failed_assemble (text : List Char) (n : Nat) : n ∈ (assemble text).failed ↔
    ∃ l, 1 ≤ n ∧ (sourceLines text)[n - 1]? = some l ∧ assembleLine l = .malformed := by
  have places : n ∈ (assemble text).failed ↔
      ∃ i, n = 1 + i ∧ ((sourceLines text).map assembleLine)[i]? = some .malformed := mem_failedLines _ 1 n
  simp only [places, List.getElem?_map, Option.map_eq_some_iff]
  constructor
  · rintro ⟨i, rfl, l, line, bad⟩
    exact ⟨l, Nat.le_add_right 1 i, by rwa [Nat.add_sub_cancel_left], bad⟩
  · rintro ⟨l, pos, line, bad⟩
    exact ⟨n - 1, by omega, l, line, bad⟩

theorem failedLines_eq_nil_iff (rs : List LineResult) (first : Nat) : failedLines first rs = [] ↔ .malformed ∉ rs := by
  induction rs generalizing first with
  | nil => simp [failedLines]
  | cons r rs ih => cases r <;> simp [failedLines, ih]

theorem isFailed_assemble (text : List Char) :
    (assemble text).isFailed = true ↔ ∃ l ∈ sourceLines text, assembleLine l = .malformed := by
  simp [Assembly.isFailed, assemble, failedLines_eq_nil_iff]

/-- Malformed lines add no word. -/
theorem wordsOf_filter_ne_malformed (rs : List LineResult) :
    wordsOf (rs.filter fun r => decide (r ≠ .malformed)) = wordsOf rs := by
  induction rs with
  | nil => rfl
  | cons r rs ih => cases r <;> simpa [wordsOf] using ih

/-- Settles O58: past the blank and comment tests a line is its tokens' parse, whose causes of failure are the three; the
failed numbers are the places of the malformed lines, which add no word. -/
theorem malformedLinesAreNumbered : Obligations.MalformedLinesAreNumbered := by
  refine ⟨?_, mem_failed_assemble, isFailed_assemble, ?_⟩
  · intro l m ops notEmpty notComment toks
    have line : assembleLine l = parseTokens (m :: ops) := by rw [assembleLine_of_head notEmpty notComment, toks]
    rw [line]
    refine ⟨parseTokens_eq_malformed_iff, fun wellFormed => ?_⟩
    obtain ⟨r, parsed⟩ := (parseTokens_cases m ops).resolve_left wellFormed
    exact ⟨r, parsed, parsed⟩
  · intro text
    rw [wordsOf_filter_ne_malformed]
    rfl

end Sys2Proof.Machine
end

