-- ==== Sys2Proof/Proofs/ProgramCounter.lean ====
section
/-!
The program counter (spec/40_fetch_decode_execute.md R85): each of the four instructions advances pc by one word's 5 bytes,
and neither a halt nor a halted core moves it.
-/

namespace Sys2Proof.Machine

variable {s t : State} {i : Instr}

/-- An instruction's effect, a register write or a store, keeps pc, so that only the advance moves it. -/
theorem exec_pc (h : exec i s = .next t) : t.pc = s.pc + 5 := by
  obtain ⟨b, c, -, rfl⟩ | ⟨b, c, -, rfl⟩ | ⟨b, c, d, -, rfl⟩ | ⟨b, c, -, rfl⟩ := exec_cases h
  · rw [advancePc_pc, setReg_pc]
  · rw [advancePc_pc, memWrite_pc]
  · rw [advancePc_pc, setReg_pc]
  · rw [advancePc_pc, memWrite_pc]

/-- No instruction faults or is refused, on any operand and from any state. -/
theorem exists_exec_eq_next (i : Instr) (s : State) : ∃ t, exec i s = .next t := by
  cases i with
  | load b c => exact ⟨_, exec_load b c s⟩
  | write b c => exact ⟨_, exec_write b c s⟩
  | read b c d => exact ⟨_, exec_read b c d s⟩
  | bitrev b c => exact ⟨_, exec_bitrev b c s⟩

/-- A step that moves pc is the execution of the instruction fetched by a RUNNING core: the two halts and the idle step of a
halted core keep pc. -/
theorem exec_of_step_pc_ne (h : step s = .next t) (moved : t.pc ≠ s.pc) :
    s.status = .running ∧ ∃ w i, s.fetch = some w ∧ decode w = .instr i ∧ exec i s = .next t := by
  obtain ⟨-, idle⟩ | ⟨-, -, halted⟩ | ⟨-, -, halted⟩ | executed := step_cases h
  · exact absurd (congrArg State.pc idle) moved
  · exact absurd (congrArg State.pc halted) moved
  · exact absurd (congrArg State.pc halted) moved
  · exact executed

/-- Settles O27: every instruction answers a state with pc 5 further, and only a step that executes one moves pc. -/
theorem pcAdvancesByFive : Obligations.PcAdvancesByFive := by
  constructor
  · intro i s
    obtain ⟨t, h⟩ := exists_exec_eq_next i s
    exact ⟨t, h, exec_pc h⟩
  · intro s t h moved
    obtain ⟨running, w, i, fetched, decoded, executed⟩ := exec_of_step_pc_ne h moved
    exact ⟨exec_pc executed, running, w, i, fetched, decoded⟩

end Sys2Proof.Machine
end

