-- ==== Sys2Proof/Proofs/LoadImmediate.lean ====
section
/-!
LOAD (spec/41_load_immediate.md R100): its format and source syntax, and its effect as one register write and the pc advance.
-/

namespace Sys2Proof.Machine

/-- The 21-bit immediate fits the register, so that zero-extension keeps its value (R100). -/
theorem immOperand_toNat (c : BitVec 21) : (immOperand c).toNat = c.toNat :=
  BitVec.toNat_setWidth_of_le (by decide)

theorem kindOfMnemonic_LOAD : kindOfMnemonic "LOAD".toList = some .load := by decide

/-- Settles O14: the decode law of LOAD's tag, the operand mapping of its mnemonic, and the read-after-write laws of the one
register written; the advance moves pc alone. -/
theorem loadWritesImmediate : Obligations.LoadWritesImmediate := by
  refine ⟨fun w => decode_load, fun tb tc b c hb hc => ?_, fun b c s => ⟨_, exec_load b c s, ?_, fun r ne => ?_, ?_⟩⟩
  · obtain ⟨load, -⟩ := operandsMapOntoFields "LOAD".toList tb tc tc b c c hb hc hc
    exact load kindOfMnemonic_LOAD
  · rw [advancePc_getReg, setReg_getReg_same, immOperand_toNat]
  · rw [advancePc_getReg, setReg_getReg_other s _ ne]
  · simp

end Sys2Proof.Machine
end

