-- ==== Sys2Proof/Proofs/Write.lean ====
section
/-!
WRITE (spec/42_memory_access.md R110): its format and source syntax, and its effect as one bounds-checked store and the pc
advance. What a store does to the cells is said for any address and value.
-/

namespace Sys2Proof.Machine

section Store
variable {s : State} {a x : Nat} {v : Word}

/-- The cell stored to, read back in bounds (R33, R34). -/
theorem memWrite_memRead_same (lt : a < s.cfg.memSize) : (s.memWrite a v).memRead a = v := by
  rw [memRead_memWrite, if_pos ⟨rfl, inBounds_eq_true_iff.2 lt⟩]

/-- A store leaves every other cell, as MemRead answers it (R33, R34). -/
theorem memWrite_memRead_other (ne : x ≠ a) : (s.memWrite a v).memRead x = s.memRead x := by
  rw [memRead_memWrite, if_neg fun same => ne same.1]

/-- A store leaves every other cell, in bounds or not, as the memory holds it (R34). -/
theorem memWrite_mem_read_other (ne : x ≠ a) : (s.memWrite a v).mem.read x = s.mem.read x := by
  obtain lt | le := Nat.lt_or_ge a s.cfg.memSize
  · rw [memWrite_of_lt lt, memory_read_write, if_neg ne]
  · rw [memWrite_of_le le]

end Store

theorem kindOfMnemonic_WRITE : kindOfMnemonic "WRITE".toList = some .write := by decide

/-- Settles O15: the decode law of WRITE's tag, the operand mapping of its mnemonic, and the laws of the one store; the
advance moves pc alone. -/
theorem writeStoresRegister : Obligations.WriteStoresRegister := by
  refine ⟨fun w => decode_write, fun tb tc b c hb hc => ?_,
    fun b c s => ⟨_, exec_write b c s, rfl, fun lt => ?_, fun le => ?_, fun a ne => ⟨?_, ?_⟩, ?_⟩⟩
  · obtain ⟨-, write, -⟩ := operandsMapOntoFields "WRITE".toList tb tc tc b c c hb hc hc
    exact write kindOfMnemonic_WRITE
  · rw [advancePc_memRead, memWrite_memRead_same lt]
  · rw [advancePc_mem, memWrite_of_le le]
  · rw [advancePc_memRead, memWrite_memRead_other ne]
  · rw [advancePc_mem, memWrite_mem_read_other ne]
  · simp

end Sys2Proof.Machine
end

