-- ==== Sys2Proof/Proofs/BitReverse.lean ====
section
/-!
BITREV (spec/43_bit_reverse.md R120, R121): the bits of a reversed value, the instruction's format and source syntax, and its
effect as one bounds-checked store and the pc advance.
-/

namespace Sys2Proof.Machine

/-- Settles O18: bit i of the result is bit 31 - i of v as a 32-bit word, whose bits are those of v reduced to 32 bits. -/
theorem bitReverse32MirrorsBits : Obligations.BitReverse32MirrorsBits := by
  intro v i lt
  have mirrored : (bitReverse32 v).getLsbD i = (BitVec.ofNat 32 v).getLsbD (31 - i) := by
    rw [bitReverse32, BitVec.getLsbD_ofFnLE, dif_pos lt]
  rw [mirrored, ← BitVec.testBit_toNat, BitVec.toNat_ofNat]

/-- A register's value is reduced already, so that the reversal mirrors its own bits. -/
theorem bitReverse32_toNat_getLsbD (w : Word) {j : Nat} (lt : j < 32) :
    (bitReverse32 w.toNat).getLsbD j = w.getLsbD (31 - j) := by
  rw [bitReverse32MirrorsBits w.toNat j lt, Nat.mod_eq_of_lt w.isLt, BitVec.testBit_toNat]

theorem kindOfMnemonic_BITREV : kindOfMnemonic "BITREV".toList = some .bitrev := by decide

/-- Settles O20: the decode law of BITREV's tag, the operand mapping of its mnemonic, and the laws of the one store, the cell
holding the mirrored bits of x[b]; the advance moves pc alone. -/
theorem bitrevStoresReversedRegister : Obligations.BitrevStoresReversedRegister := by
  refine ⟨fun w => decode_bitrev, fun tb tc b c hb hc => ?_,
    fun b c s => ⟨_, exec_bitrev b c s, rfl, fun lt j bit => ?_, fun le => ?_, fun a ne => ⟨?_, ?_⟩, ?_⟩⟩
  · obtain ⟨-, -, -, bitrev, -⟩ := operandsMapOntoFields "BITREV".toList tb tc tc b c c hb hc hc
    exact bitrev kindOfMnemonic_BITREV
  · rw [advancePc_memRead, memWrite_memRead_same lt, bitReverse32_toNat_getLsbD _ bit]
  · rw [advancePc_mem, memWrite_of_le le]
  · rw [advancePc_memRead, memWrite_memRead_other ne]
  · rw [advancePc_mem, memWrite_mem_read_other ne]
  · simp

end Sys2Proof.Machine
end

