-- ==== Sys2Proof/Proofs/ExitReport.lean ====
section
/-!
The host's exit report (spec/60_exceptions.md R139): what each of its flags says of the run status.
-/

namespace Sys2Proof.Machine

variable {s : State}

theorem halted_iff : s.halted = true ↔ s.status ≠ .running := by simp [State.halted]

theorem complete_iff : s.complete = true ↔ s.status = .haltedComplete := by simp [State.complete]

theorem exitNonzero_iff : s.exitNonzero = true ↔ s.status = .haltedUnknownOpcode ∧ s.cfg.strict = true := by
  simp [State.exitNonzero]

@[simp] theorem reportOf_complete (start stop : Int) (s : State) : (reportOf start stop s).complete = s.complete := rfl
@[simp] theorem reportOf_exitNonzero (start stop : Int) (s : State) :
    (reportOf start stop s).exitNonzero = s.exitNonzero := rfl

/-- There are two halted states (R86), so that a halted run which is not complete met an unknown opcode. -/
theorem complete_eq_false_iff_of_halted (h : s.halted = true) :
    s.complete = false ↔ s.status = .haltedUnknownOpcode := by
  have notRunning : s.status ≠ .running := halted_iff.mp h
  rw [← Bool.not_eq_true, complete_iff]
  cases hs : s.status with
  | running => exact absurd hs notRunning
  | haltedComplete => simp
  | haltedUnknownOpcode => simp

/-- Settles O47: the report carries the state's own flags, and each says of the status what R139 asks. -/
theorem exitReportFollowsStatus : Obligations.ExitReportFollowsStatus := by
  intro s start stop
  rw [reportOf_complete, reportOf_exitNonzero]
  exact ⟨complete_iff, complete_eq_false_iff_of_halted, exitNonzero_iff⟩

end Sys2Proof.Machine
end

