-- ==== Sys2Proof/Proofs/Reset.lean ====
section
/-!
Reset (spec/70_reset_and_hazards.md R150): the values it gives, and that no step undoes a halt, so that reset alone can.
-/

namespace Sys2Proof.Machine

variable {s t : State}

/-- A halted core stays as it is (R86): the three other things a step can do are done only while RUNNING. -/
theorem step_eq_self_of_halted (halted : s.halted = true) (h : step s = .next t) : t = s := by
  have notRunning : s.status ≠ .running := halted_iff.mp halted
  obtain ⟨-, idle⟩ | ⟨running, -⟩ | ⟨running, -⟩ | ⟨running, -⟩ := step_cases h
  · exact idle
  · exact absurd running notRunning
  · exact absurd running notRunning
  · exact absurd running notRunning

/-- Reset is idle on the fixed reset state, which holds the reset values already (R150). -/
@[simp] theorem reset_applyReset : State.reset.applyReset = State.reset := rfl

/-- Settles O43: the values are the field laws of `State.applyReset`, a cell of the emptied memory reading 0; a step from a
halted state leads to that same state. -/
theorem resetGivesTheResetValues : Obligations.ResetGivesTheResetValues := by
  refine ⟨fun s => ⟨applyReset_getReg s, fun a => ?_, applyReset_pc s, applyReset_status s, applyReset_image s⟩,
    fun s t halted h => ?_, reset_applyReset⟩
  · rw [applyReset_mem, memory_read_nil]
  · rw [step_eq_self_of_halted halted h, halted]

end Sys2Proof.Machine
end

