-- ==== Sys2Proof/Proofs/Steps.lean ====
section
/-!
One step of the loop (spec/40_fetch_decode_execute.md section 1), as one rule for each of the four things it can do,
and the order of its checks (spec/60_exceptions.md section 3).
-/

namespace Sys2Proof

/-- A word is rejected with its own tag, and only for a tag that is none of the four (R58). -/
theorem decode_eq_unknownOpcode_iff {w : InstrWord} {t : BitVec 5} : decode w = .unknownOpcode t ↔
    t = tagOf w ∧ tagOf w ≠ 15#5 ∧ tagOf w ≠ 8#5 ∧ tagOf w ≠ 17#5 ∧ tagOf w ≠ 25#5 := by
  constructor
  · intro rejected
    obtain h | h | h | h | unassigned := tag_cases w
    · rw [decode_load h] at rejected; cases rejected
    · rw [decode_write h] at rejected; cases rejected
    · rw [decode_read h] at rejected; cases rejected
    · rw [decode_bitrev h] at rejected; cases rejected
    · rw [decode_unknown unassigned] at rejected
      cases rejected
      exact ⟨rfl, unassigned⟩
  · rintro ⟨rfl, unassigned⟩
    exact decode_unknown unassigned

/-- The tag as a number. -/
theorem tagOf_toNat (w : InstrWord) : (tagOf w).toNat = w.toNat % 32 := by
  simp [tagOf]

/-- The 28 tags of the illegal class (spec/30_encoding.md section 4) are those of none of the four kinds. -/
theorem mem_unassignedTags_iff : ∀ t : BitVec 5,
    t.toNat ∈ [0, 1, 2, 3, 4, 5, 6, 7, 9, 10, 11, 12, 13, 14, 16, 18, 19, 20, 21, 22, 23, 24, 26, 27, 28, 29, 30, 31] ↔
      t ≠ 15#5 ∧ t ≠ 8#5 ∧ t ≠ 17#5 ∧ t ≠ 25#5 := by decide

/-- Bytes decode to an instruction exactly when they begin with a word that does. -/
theorem decodeBytes_eq_instr_iff {bytes rest : List Byte} {i : Instr} :
    decodeBytes bytes = .instr i rest ↔ ∃ w, takeWord bytes = some (w, rest) ∧ decode w = .instr i := by
  unfold decodeBytes
  cases taken : takeWord bytes with
  | none => simp
  | some p =>
    obtain ⟨w, tail⟩ := p
    cases decoded : decode w <;> simp [decoded, and_comm]

end Sys2Proof

namespace Sys2Proof.Machine

variable {s t : State} {i : Instr} {w : InstrWord} {tag : BitVec 5}

theorem step_of_not_running (h : s.status ≠ .running) : step s = .next s := by
  unfold step loopStep
  cases hs : s.status with
  | running => exact absurd hs h
  | haltedComplete => rfl
  | haltedUnknownOpcode => rfl

theorem step_of_fetch_none (running : s.status = .running) (h : s.fetch = none) :
    step s = .next (s.halt .haltedComplete) := by rw [step_running running, runningStep_none h]

theorem step_of_unknown (running : s.status = .running) (h : s.fetch = some w) (d : decode w = .unknownOpcode tag) :
    step s = .next (s.halt .haltedUnknownOpcode) := by rw [step_running running, runningStep_unknown h d]

theorem step_of_instr (running : s.status = .running) (h : s.fetch = some w) (d : decode w = .instr i) :
    step s = exec i s := by rw [step_running running, runningStep_instr h d]

/-- A whole word remains at pc exactly where a fetch finds one (R81). -/
theorem exists_fetch_eq_some_iff : (∃ w, s.fetch = some w) ↔ s.pc + 5 ≤ s.image.length := by
  rw [← Option.ne_none_iff_exists', ne_eq, fetch_eq_none, not_lt]

theorem pc_add_five_le_of_fetch (h : s.fetch = some w) : s.pc + 5 ≤ s.image.length :=
  exists_fetch_eq_some_iff.1 ⟨w, h⟩

/-- A fetch depends on the image and pc alone (R36). -/
theorem fetch_congr {s s' : State} (image : s'.image = s.image) (pc : s'.pc = s.pc) : s'.fetch = s.fetch := by
  rw [State.fetch, State.fetch, image, pc]

/-- A word that decodes is not an unknown one. -/
theorem not_atUnknownWord (h : s.fetch = some w) (d : decode w = .instr i) : ¬s.atUnknownWord := by
  rintro ⟨v, tag, fetched, rejected⟩
  rw [h, Option.some.injEq] at fetched
  rw [← fetched, d] at rejected
  cases rejected

section ExecFrame
variable (h : exec i s = .next t)
include h

/-- What no instruction changes: the status, the image and the parameters. -/
theorem exec_status : t.status = s.status := by
  obtain ⟨b, c, -, rfl⟩ | ⟨b, c, -, rfl⟩ | ⟨b, c, d, -, rfl⟩ | ⟨b, c, -, rfl⟩ := exec_cases h <;> simp

theorem exec_image : t.image = s.image := by
  obtain ⟨b, c, -, rfl⟩ | ⟨b, c, -, rfl⟩ | ⟨b, c, d, -, rfl⟩ | ⟨b, c, -, rfl⟩ := exec_cases h <;> simp

theorem exec_cfg : t.cfg = s.cfg := by
  obtain ⟨b, c, -, rfl⟩ | ⟨b, c, -, rfl⟩ | ⟨b, c, d, -, rfl⟩ | ⟨b, c, -, rfl⟩ := exec_cases h <;> simp

/-- No instruction spoils the canonical form of the memory. -/
theorem exec_mem_wf (wf : s.mem.wf = true) : t.mem.wf = true := by
  obtain ⟨b, c, -, rfl⟩ | ⟨b, c, -, rfl⟩ | ⟨b, c, d, -, rfl⟩ | ⟨b, c, -, rfl⟩ := exec_cases h
  · exact wf
  · exact memWrite_wf s _ _ wf
  · exact wf
  · exact memWrite_wf s _ _ wf

end ExecFrame

/-- Every state has a next one: the core neither faults nor refuses (R131). -/
theorem exists_step_eq_next (s : State) : ∃ t, step s = .next t := by
  by_cases running : s.status = .running
  · cases fetched : s.fetch with
    | none => exact ⟨_, step_of_fetch_none running fetched⟩
    | some w =>
      cases decoded : decode w with
      | unknownOpcode tag => exact ⟨_, step_of_unknown running fetched decoded⟩
      | instr i =>
        rw [step_of_instr running fetched decoded]
        exact exists_exec_eq_next i s
  · exact ⟨s, step_of_not_running running⟩

theorem step_image (h : step s = .next t) : t.image = s.image := by
  obtain ⟨-, rfl⟩ | ⟨-, -, rfl⟩ | ⟨-, -, rfl⟩ | ⟨-, w, i, -, -, executed⟩ := step_cases h
  · rfl
  · rfl
  · rfl
  · exact exec_image executed

theorem step_cfg (h : step s = .next t) : t.cfg = s.cfg := by
  obtain ⟨-, rfl⟩ | ⟨-, -, rfl⟩ | ⟨-, -, rfl⟩ | ⟨-, w, i, -, -, executed⟩ := step_cases h
  · rfl
  · rfl
  · rfl
  · exact exec_cfg executed

/-- Settles O26: the bytes at pc begin with the word the step fetches. -/
theorem stepRunsTheDecodedInstruction : Obligations.StepRunsTheDecodedInstruction := by
  intro s i rest running decoded
  obtain ⟨w, taken, decoded⟩ := decodeBytes_eq_instr_iff.1 decoded
  have fetched : s.fetch = some w := by rw [State.fetch, taken]; rfl
  exact step_of_instr running fetched decoded

/-- Settles O28: with fewer than 5 bytes at pc there is no word to fetch. -/
theorem endOfImageCompletesTheRun : Obligations.EndOfImageCompletesTheRun :=
  fun s running short => step_of_fetch_none running ((fetch_eq_none s).2 short)

/-- Settles O29: such a word is rejected, and the rejection sets the status alone. -/
theorem unknownOpcodeHaltsTheRun : Obligations.UnknownOpcodeHaltsTheRun := by
  intro s w running fetched unassigned
  have rejected : decode w = .unknownOpcode (tagOf w) := by
    refine decode_unknown ?_
    simpa only [ne_eq, ← BitVec.toNat_inj, tagOf_toNat, BitVec.toNat_ofNat, Nat.reducePow, Nat.reduceMod] using unassigned
  exact step_of_unknown running fetched rejected

/-- Settles O5: the 28 tags are those of none of the four kinds, and the rejection sets the status alone. -/
theorem unassignedTagsAreRejected : Obligations.UnassignedTagsAreRejected := by
  constructor
  · intro w t
    rw [mem_unassignedTags_iff, decode_eq_unknownOpcode_iff]
    exact and_congr_right fun same => by rw [same]
  · intro s w t running fetched rejected
    exact step_of_unknown running fetched rejected

/-- Settles O30: each of the three things a RUNNING step can do is one of the three cases, and gives its status. -/
theorem stepChecksInOrder : Obligations.StepChecksInOrder := by
  intro s t running h
  obtain ⟨idle, -⟩ | ⟨-, none, rfl⟩ | ⟨-, ⟨w, tag, fetched, rejected⟩, rfl⟩ |
    ⟨-, w, i, fetched, decoded, executed⟩ := step_cases h
  · exact absurd running idle
  · have short := (fetch_eq_none s).1 none
    have noWord : ¬s.pc + 5 ≤ s.image.length := by omega
    simp [short, noWord]
  · have whole := pc_add_five_le_of_fetch fetched
    have unknown : s.atUnknownWord := ⟨w, tag, fetched, rejected⟩
    have notShort : ¬s.image.length < s.pc + 5 := by omega
    simp [whole, unknown, notShort]
  · have whole := pc_add_five_le_of_fetch fetched
    have known := not_atUnknownWord fetched decoded
    have notShort : ¬s.image.length < s.pc + 5 := by omega
    simp [exec_status executed, running, whole, known, notShort]

end Sys2Proof.Machine
end

