-- ==== Sys2Proof/Proofs/Runs.lean ====
section
/-!
Runs of n steps: what every step keeps holds along a run, and what two machines keep between them by a step apiece holds
between their runs.
-/

namespace Sys2Proof.Machine

variable {s t : State} {n : Nat}

theorem run_zero_eq (s : State) : Sys2Proof.core.run 0 s = .next s := rfl

theorem run_succ_eq_next_iff :
    Sys2Proof.core.run (n + 1) s = .next t ↔ ∃ u, step s = .next u ∧ Sys2Proof.core.run n u = .next t := by
  obtain ⟨u, stepped⟩ := exists_step_eq_next s
  simp [run_succ n stepped, stepped]

/-- Package of the induction over runs: what a step keeps holds of every state a run reaches. -/
theorem run_induction {P : State → Prop} (keeps : ∀ s t, P s → step s = .next t → P t) (h : P s)
    (run : Sys2Proof.core.run n s = .next t) : P t := by
  induction n generalizing s with
  | zero => rw [run_zero run]; exact h
  | succ n ih =>
    obtain ⟨u, stepped, rest⟩ := run_succ_eq_next_iff.1 run
    exact ih (keeps s u h stepped) rest

/-- Package of the induction over two runs: a relation that the second machine can keep at every step of the first holds
between the states they reach. -/
theorem run_simulation {R : State → State → Prop}
    (simulates : ∀ s s' t, R s s' → step s = .next t → ∃ t', step s' = .next t' ∧ R t t') {s' : State} (h : R s s')
    (run : Sys2Proof.core.run n s = .next t) : ∃ t', Sys2Proof.core.run n s' = .next t' ∧ R t t' := by
  induction n generalizing s s' with
  | zero =>
    rw [run_zero run]
    exact ⟨s', rfl, h⟩
  | succ n ih =>
    obtain ⟨u, stepped, rest⟩ := run_succ_eq_next_iff.1 run
    obtain ⟨u', stepped', related⟩ := simulates s s' u h stepped
    obtain ⟨t', run', related'⟩ := ih related rest
    exact ⟨t', run_succ_eq_next_iff.2 ⟨u', stepped', run'⟩, related'⟩

theorem run_of_not_running (n : Nat) (h : s.status ≠ .running) : Sys2Proof.core.run n s = .next s := by
  induction n with
  | zero => rfl
  | succ n ih => rw [run_succ n (step_of_not_running h), ih]

theorem exists_run_eq_next (n : Nat) (s : State) : ∃ t, Sys2Proof.core.run n s = .next t := by
  induction n generalizing s with
  | zero => exact ⟨s, rfl⟩
  | succ n ih =>
    obtain ⟨u, stepped⟩ := exists_step_eq_next s
    rw [run_succ n stepped]
    exact ih u

theorem run_image (run : Sys2Proof.core.run n s = .next t) : t.image = s.image :=
  run_induction (P := fun u => u.image = s.image) (fun _ _ same stepped => (step_image stepped).trans same) rfl run

theorem run_cfg (run : Sys2Proof.core.run n s = .next t) : t.cfg = s.cfg :=
  run_induction (P := fun u => u.cfg = s.cfg) (fun _ _ same stepped => (step_cfg stepped).trans same) rfl run

/-- Settles O31: the step of a core that is not RUNNING is idle, and so is every run of it. -/
theorem haltedCoreStaysAsItIs : Obligations.HaltedCoreStaysAsItIs :=
  fun _ n halted => run_of_not_running n halted

/-- Settles O32: every instruction has a next state, so every step has one, and so has every run. -/
theorem nothingFaultsOrIsRefused : Obligations.NothingFaultsOrIsRefused :=
  ⟨exists_exec_eq_next, fun s n => exists_run_eq_next n s⟩

/-- Settles O33: every step keeps the image and the parameters. -/
theorem imageAndParametersNeverChange : Obligations.ImageAndParametersNeverChange :=
  fun _ _ _ run => ⟨run_image run, run_cfg run⟩

end Sys2Proof.Machine
end

