-- ==== Sys2Proof/Proofs/Invariant.lean ====
section
/-!
The invariant of a run (spec/10_state.md sections 2 to 4): it holds at reset and after every boot, every step keeps
it, and so it holds at every point of every run.
-/

namespace Sys2Proof.Machine

variable {s t : State} {i : Instr} {w : InstrWord} {n : Nat}

theorem memWrite_below (a : Nat) (v : Word) (h : s.mem.below s.cfg.memSize = true) :
    (s.memWrite a v).mem.below s.cfg.memSize = true := by
  obtain lt | le := Nat.lt_or_ge a s.cfg.memSize
  · rw [memWrite_of_lt lt]
    exact memory_below_write h lt v
  · rw [memWrite_of_le le]
    exact h

/-- No instruction lists a cell at or above MEM_SIZE. -/
theorem exec_mem_below (h : exec i s = .next t) (below : s.mem.below s.cfg.memSize = true) :
    t.mem.below s.cfg.memSize = true := by
  obtain ⟨b, c, -, rfl⟩ | ⟨b, c, -, rfl⟩ | ⟨b, c, d, -, rfl⟩ | ⟨b, c, -, rfl⟩ := exec_cases h
  · exact below
  · exact memWrite_below _ _ below
  · exact below
  · exact memWrite_below _ _ below

/-- A halt keeps the invariant when its status tells the truth about the image at pc. -/
theorem State.Inv.halt {h : RunStatus} (inv : s.Inv) (complete : h = .haltedComplete → s.image.length < s.pc + 5)
    (unknown : h = .haltedUnknownOpcode → s.atUnknownWord) : (s.halt h).Inv :=
  ⟨inv.legal, inv.wf, inv.below, inv.aligned, inv.inImage, complete, unknown⟩

/-- An instruction executed by a RUNNING core at a whole word keeps the invariant. -/
theorem State.Inv.exec (inv : s.Inv) (running : s.status = .running) (whole : s.pc + 5 ≤ s.image.length)
    (h : exec i s = .next t) : t.Inv := by
  have status : t.status = .running := (exec_status h).trans running
  have pc : t.pc = s.pc + 5 := exec_pc h
  have image : t.image = s.image := exec_image h
  have cfg : t.cfg = s.cfg := exec_cfg h
  have aligned := inv.aligned
  exact
    { legal := by rw [cfg]; exact inv.legal
      wf := exec_mem_wf h inv.wf
      below := by rw [cfg]; exact exec_mem_below h inv.below
      aligned := by omega
      inImage := by rw [pc, image]; exact whole
      completeAtEnd := by simp [status]
      unknownAtPc := by simp [status] }

/-- Settles O34: one case for each of the four things a step can do. -/
theorem invariantKeptByEveryStep : Obligations.InvariantKeptByEveryStep := by
  intro s t inv h
  obtain ⟨-, rfl⟩ | ⟨-, none, rfl⟩ | ⟨-, unknown, rfl⟩ | ⟨running, w, i, fetched, -, executed⟩ := step_cases h
  · exact inv
  · exact inv.halt (fun _ => (fetch_eq_none s).1 none) nofun
  · exact inv.halt nofun fun _ => unknown
  · exact inv.exec running (pc_add_five_le_of_fetch fetched) executed

/-- The invariant of a state that is at the first word with its core RUNNING is that of its parameters and memory. -/
theorem State.Inv.of_start (legal : s.cfg.Legal) (wf : s.mem.wf = true) (below : s.mem.below s.cfg.memSize = true)
    (pc : s.pc = 0) (running : s.status = .running) : s.Inv :=
  { legal, wf, below, aligned := by rw [pc], inImage := by rw [pc]; exact Nat.zero_le _
    completeAtEnd := by simp [running], unknownAtPc := by simp [running] }

/-- Settles O35: the reset state is at the first word, its memory empty. -/
theorem invariantHoldsAtReset : Obligations.InvariantHoldsAtReset :=
  .of_start (by decide) reset_mem_wf rfl rfl rfl

theorem Preset.cells_length_of_legal {p : Preset} {cfg : Config} (h : p.legal cfg = true) :
    p.cells.length = cfg.memSize := by
  simp only [Preset.legal, Bool.and_eq_true, decide_eq_true_eq] at h
  obtain ⟨⟨⟨-, cells⟩, -⟩, -⟩ := h
  exact cells

section Boot
variable {cfg : Config} {image : List Byte} {preset : Option Preset} (h : boot cfg image preset = .started s)
include h

theorem boot_pc : s.pc = 0 := by
  obtain ⟨-, rfl | ⟨p, -, -, rfl⟩⟩ := boot_cases h <;> simp

theorem boot_status : s.status = .running := by
  obtain ⟨-, rfl | ⟨p, -, -, rfl⟩⟩ := boot_cases h <;> simp

theorem boot_image : s.image = image := by
  obtain ⟨-, rfl | ⟨p, -, -, rfl⟩⟩ := boot_cases h <;> simp

theorem boot_cfg : s.cfg = cfg := by
  obtain ⟨-, rfl | ⟨p, -, -, rfl⟩⟩ := boot_cases h <;> simp

/-- The memory a boot starts with is in canonical form and inside its bounds, zeros or preset. -/
theorem boot_mem : s.mem.wf = true ∧ s.mem.below cfg.memSize = true := by
  obtain ⟨-, rfl | ⟨p, -, legal, rfl⟩⟩ := boot_cases h
  · exact ⟨rfl, rfl⟩
  · rw [applyPreset_mem]
    refine ⟨wfFrom_ofCells 0 p.cells, ?_⟩
    have below := ofCells_below 0 p.cells
    rwa [Nat.zero_add, Preset.cells_length_of_legal legal] at below

theorem boot_inv : s.Inv := by
  obtain ⟨legal, -⟩ := boot_cases h
  obtain ⟨wf, below⟩ := boot_mem h
  have cfg := boot_cfg h
  exact .of_start (by rwa [cfg]) wf (by rwa [cfg]) (boot_pc h) (boot_status h)

end Boot

/-- Settles O36: a boot starts at the first word, with legal parameters and a canonical memory of their size. -/
theorem invariantHoldsAfterBoot : Obligations.InvariantHoldsAfterBoot := fun _ _ _ _ h => boot_inv h

theorem State.Inv.run (inv : s.Inv) (run : Sys2Proof.core.run n s = .next t) : t.Inv :=
  run_induction invariantKeptByEveryStep inv run

/-- Settles O37: the invariant of a run has the first two, and a step that moves pc executed a whole word. -/
theorem pcStaysAlignedInsideTheImage : Obligations.PcStaysAlignedInsideTheImage := by
  intro cfg image preset s t n booted run
  have inv : t.Inv := (boot_inv booted).run run
  have sameImage : t.image = image := (run_image run).trans (boot_image booted)
  rw [← sameImage]
  refine ⟨inv.aligned, inv.inImage, fun u h moved => ?_⟩
  obtain ⟨-, w, i, fetched, -, executed⟩ := exec_of_step_pc_ne h moved
  exact ⟨exec_pc executed, pc_add_five_le_of_fetch fetched⟩

end Sys2Proof.Machine
end

