-- ==== Sys2Proof/Proofs/Termination.lean ====
section
/-!
Every run is finite (spec/40_fetch_decode_execute.md section 1): each step a core stays RUNNING brings pc one word
nearer the end of the image.
-/

namespace Sys2Proof.Machine

variable {s t : State} {n : Nat}

/-- A step that leaves the core RUNNING executed an instruction: the two halts and the idle step leave it halted. -/
theorem exec_of_step_running (h : step s = .next t) (running : t.status = .running) :
    s.status = .running ∧ ∃ w i, s.fetch = some w ∧ decode w = .instr i ∧ exec i s = .next t := by
  obtain ⟨idle, rfl⟩ | ⟨-, -, rfl⟩ | ⟨-, -, rfl⟩ | executed := step_cases h
  · exact absurd running idle
  · cases running
  · cases running
  · exact executed

/-- A run that is still RUNNING executed a whole word of the image in each of its steps. -/
theorem run_running (run : Sys2Proof.core.run n s = .next t) (running : t.status = .running) :
    s.status = .running ∧ t.pc = s.pc + 5 * n ∧ (n ≠ 0 → t.pc ≤ s.image.length) := by
  induction n generalizing s with
  | zero =>
    rw [run_zero run] at running ⊢
    exact ⟨running, rfl, fun h => absurd rfl h⟩
  | succ n ih =>
    obtain ⟨u, stepped, rest⟩ := run_succ_eq_next_iff.1 run
    obtain ⟨stillRunning, pc, inside⟩ := ih rest
    obtain ⟨start, w, i, fetched, -, executed⟩ := exec_of_step_running stepped stillRunning
    have next := exec_pc executed
    have whole := pc_add_five_le_of_fetch fetched
    rw [exec_image executed] at inside
    refine ⟨start, by omega, fun _ => ?_⟩
    by_cases last : n = 0
    · omega
    · exact inside last

/-- A run of at least one step that would bring pc past the image ends halted. -/
theorem run_halts (n : Nat) (s : State) (bound : s.image.length < s.pc + 5 * (n + 1)) :
    ∃ t, Sys2Proof.core.run (n + 1) s = .next t ∧ t.halted = true := by
  obtain ⟨t, run⟩ := exists_run_eq_next (n + 1) s
  refine ⟨t, run, halted_iff.2 fun running => ?_⟩
  obtain ⟨-, pc, inside⟩ := run_running run running
  have := inside (Nat.succ_ne_zero n)
  omega

/-- Settles O38: that many words of 5 bytes reach past the end of the image. -/
theorem everyRunHalts : Obligations.EveryRunHalts :=
  fun s => run_halts _ s (by omega)

/-- A booted run halts within one step more than the image has whole words (R87). -/
theorem boot_run_halts {cfg : Config} {image : List Byte} {preset : Option Preset}
    (h : boot cfg image preset = .started s) :
    ∃ t, Sys2Proof.core.run (image.length / 5 + 1) s = .next t ∧ t.halted = true :=
  run_halts _ s (by rw [boot_image h, boot_pc h]; omega)

/-- Settles O39: the run starts at pc 0, so that n steps of a RUNNING core bring it to 5n, which is inside the image. -/
theorem runGoesThroughTheImageOnce : Obligations.RunGoesThroughTheImageOnce := by
  intro cfg image preset s booted
  refine ⟨fun n t run running => ?_, boot_run_halts booted⟩
  obtain ⟨-, pc, -⟩ := run_running run running
  have inImage := ((boot_inv booted).run run).inImage
  rw [run_image run, boot_image booted] at inImage
  have start := boot_pc booted
  omega

/-- Settles O48: the steps that execute takes are enough, so that it never refuses for want of a halt. -/
theorem executeReportsTheHaltedState : Obligations.ExecuteReportsTheHaltedState := by
  intro cfg image preset start stop
  constructor
  · intro r refused
    rw [executeImage, refused]
  · intro s booted
    obtain ⟨t, run, halted⟩ := boot_run_halts booted
    refine ⟨t, image.length / 5 + 1, run, halted, Nat.le_refl _, ?_, ?_⟩
    · simp only [executeImage, booted, run, halted, if_true]
    · simp only [reportOf, State.hostReadOut, halted, if_true]

end Sys2Proof.Machine
end

