-- ==== Sys2Proof/Proofs/Noninterference.lean ====
section
/-!
What a run does not depend on: data (spec/40_fetch_decode_execute.md section 1), the bytes after the last whole word
(decision D18) and STRICT (decision D19). Each is a relation between two machines that a step apiece keeps.
-/

namespace Sys2Proof.Machine

variable {s s' t t' : State} {i : Instr} {n : Nat}

/-- Two machines that stand at the same place of the same image with the same status. -/
structure SameControl (s s' : State) : Prop where
  image : s'.image = s.image
  pc : s'.pc = s.pc
  status : s'.status = s.status

/-- Whatever their data, a step takes both to the same place: both idle, both halt, or both execute the fetched word. -/
theorem SameControl.step (same : SameControl s s') (h : step s = .next t) :
    ∃ t', step s' = .next t' ∧ SameControl t t' := by
  obtain ⟨image, pc, status⟩ := same
  have fetch := fetch_congr image pc
  obtain ⟨idle, rfl⟩ | ⟨running, none, rfl⟩ | ⟨running, ⟨w, tag, fetched, rejected⟩, rfl⟩ |
    ⟨running, w, i, fetched, decoded, executed⟩ := step_cases h
  · exact ⟨s', step_of_not_running (by rwa [status]), image, pc, status⟩
  · exact ⟨_, step_of_fetch_none (status.trans running) (fetch.trans none), image, pc, rfl⟩
  · exact ⟨_, step_of_unknown (status.trans running) (fetch.trans fetched) rejected, image, pc, rfl⟩
  · obtain ⟨t', executed'⟩ := exists_exec_eq_next i s'
    refine ⟨t', (step_of_instr (status.trans running) (fetch.trans fetched) decoded).trans executed', ?_, ?_, ?_⟩
    · rw [exec_image executed', exec_image executed, image]
    · rw [exec_pc executed', exec_pc executed, pc]
    · rw [exec_status executed', exec_status executed, status]

/-- Settles O40: a step apiece keeps the same control. -/
theorem controlIgnoresData : Obligations.ControlIgnoresData := by
  intro s s' t t' n image pc status run run'
  obtain ⟨u, runU, same⟩ := run_simulation (fun _ _ _ same h => SameControl.step same h) ⟨image, pc, status⟩ run
  obtain rfl : t' = u := Host.Outcome.next.inj (run'.symm.trans runU)
  exact ⟨same.pc, same.status⟩

/-- The machine with another image and another STRICT. -/
def State.withHost (s : State) (image : List Byte) (strict : Bool) : State :=
  { s with image := image, cfg := ⟨s.cfg.memSize, strict⟩ }

section WithHost
variable {image : List Byte} {strict : Bool}

theorem withHost_memWrite (a : Nat) (v : Word) :
    (s.withHost image strict).memWrite a v = (s.memWrite a v).withHost image strict := by
  simp only [memWrite_eq]
  rfl

/-- No instruction looks at the image or at STRICT (R84, decision D19). -/
theorem exec_withHost (h : exec i s = .next t) :
    exec i (s.withHost image strict) = .next (t.withHost image strict) := by
  obtain ⟨b, c, rfl, rfl⟩ | ⟨b, c, rfl, rfl⟩ | ⟨b, c, d, rfl, rfl⟩ | ⟨b, c, rfl, rfl⟩ := exec_cases h
  · rfl
  · rw [exec_write, withHost_memWrite]; rfl
  · rfl
  · rw [exec_bitrev, withHost_memWrite]; rfl

/-- A step depends on the image by its fetch alone, and on STRICT not at all. -/
theorem step_withHost (fetch : (s.withHost image strict).fetch = s.fetch) (h : step s = .next t) :
    step (s.withHost image strict) = .next (t.withHost image strict) := by
  obtain ⟨idle, rfl⟩ | ⟨running, none, rfl⟩ | ⟨running, ⟨w, tag, fetched, rejected⟩, rfl⟩ |
    ⟨running, w, i, fetched, decoded, executed⟩ := step_cases h
  · exact step_of_not_running idle
  · exact step_of_fetch_none running (fetch.trans none)
  · exact step_of_unknown running (fetch.trans fetched) rejected
  · rw [← exec_withHost executed]
    exact step_of_instr running (fetch.trans fetched) decoded

end WithHost

/-- Settles O42: the fetch does not see STRICT, so no step does. -/
theorem strictChangesNoRun : Obligations.StrictChangesNoRun := by
  intro s t strict n run
  obtain ⟨t', run', related⟩ := run_simulation (R := fun u u' => u' = u.withHost u.image strict)
    (fun u _ v related h => ⟨v.withHost v.image strict, by
      rw [related, step_image h]
      exact step_withHost rfl h, rfl⟩) (s' := s.withHost s.image strict) rfl run
  rw [related] at run'
  exact run'

/-- Bytes after a word do not change it. -/
theorem takeWord_append {bytes rest : List Byte} {w : InstrWord} (tail : List Byte)
    (h : takeWord bytes = some (w, rest)) :
    takeWord (bytes ++ tail) = some (w, rest ++ tail) := by
  unfold takeWord at h
  split at h
  · cases h; rfl
  · cases h

/-- Fewer than 5 bytes after the last whole word make no further word at any word's place (R81, decision D18). -/
theorem fetch_append_tail {tail : List Byte} {strict : Bool} (short : tail.length < 5) (whole : s.image.length % 5 = 0)
    (aligned : s.pc % 5 = 0) : (s.withHost (s.image ++ tail) strict).fetch = s.fetch := by
  cases fetched : s.fetch with
  | none =>
    rw [fetch_eq_none] at fetched ⊢
    simp only [State.withHost, List.length_append]
    omega
  | some w =>
    have inside := pc_add_five_le_of_fetch fetched
    simp only [State.fetch, Option.map_eq_some_iff, Prod.exists, exists_and_right, exists_eq_right] at fetched ⊢
    obtain ⟨rest, taken⟩ := fetched
    refine ⟨rest ++ tail, ?_⟩
    simp only [State.withHost]
    rw [List.drop_append_of_le_length (by omega)]
    exact takeWord_append tail taken

/-- A machine, its image made of whole words and its pc at one, and the same machine with a tail on its image. -/
structure WithTail (tail : List Byte) (s s' : State) : Prop where
  whole : s.image.length % 5 = 0
  aligned : s.pc % 5 = 0
  tailed : s' = s.withHost (s.image ++ tail) s.cfg.strict

theorem step_aligned (aligned : s.pc % 5 = 0) (h : step s = .next t) : t.pc % 5 = 0 := by
  by_cases moved : t.pc = s.pc
  · rwa [moved]
  · obtain ⟨-, w, i, -, -, executed⟩ := exec_of_step_pc_ne h moved
    have := exec_pc executed
    omega

theorem WithTail.step {tail : List Byte} (short : tail.length < 5) (related : WithTail tail s s') (h : step s = .next t) :
    ∃ t', step s' = .next t' ∧ WithTail tail t t' := by
  obtain ⟨whole, aligned, rfl⟩ := related
  refine ⟨_, step_withHost (fetch_append_tail short whole aligned) h, ?_, step_aligned aligned h, ?_⟩
  · rwa [step_image h]
  · rw [step_image h, step_cfg h]

/-- Settles O41: at every step of the run the tail makes no further word, so the fetch is the same. -/
theorem trailingBytesAreNeverExecuted : Obligations.TrailingBytesAreNeverExecuted := by
  intro s t tail n short whole aligned run
  obtain ⟨t', run', related⟩ := run_simulation (fun _ _ _ related h => WithTail.step short related h)
    ⟨whole, aligned, rfl⟩ run
  rw [related.tailed] at run'
  exact run'

end Sys2Proof.Machine
end

