-- ==== Sys2Proof/Proofs/Words.lean ====
section
/-!
Instruction words as numbers and as bytes (spec/30_encoding.md section 3, spec/20_memory.md section 3): what the
encoder packs, the bits no field covers, and the five bytes of a word in an image.
-/

namespace Sys2Proof

/-! ### The packed number -/

section Packed
variable (b c d : Nat)

theorem encodeFields_load_toNat :
    (encodeFields ⟨.load, b, c, d⟩).toNat = 15 + 2 ^ 5 * (b % 2 ^ 5) + 2 ^ 10 * (c % 2 ^ 21) := by
  simp only [encodeFields, maskN, BitVec.toNat_ofNat]
  omega

theorem encodeFields_write_toNat :
    (encodeFields ⟨.write, b, c, d⟩).toNat = 8 + 2 ^ 5 * (b % 2 ^ 5) + 2 ^ 10 * (c % 2 ^ 27) := by
  simp only [encodeFields, maskN, BitVec.toNat_ofNat]
  omega

theorem encodeFields_read_toNat : (encodeFields ⟨.read, b, c, d⟩).toNat =
    17 + 2 ^ 5 * (b % 2 ^ 13) + 2 ^ 18 * (c % 2 ^ 5) + 2 ^ 23 * (d % 2 ^ 5) := by
  simp only [encodeFields, maskN, BitVec.toNat_ofNat]
  omega

theorem encodeFields_bitrev_toNat :
    (encodeFields ⟨.bitrev, b, c, d⟩).toNat = 25 + 2 ^ 5 * (b % 2 ^ 5) + 2 ^ 10 * (c % 2 ^ 5) := by
  simp only [encodeFields, maskN, BitVec.toNat_ofNat]
  omega

end Packed

/-! ### The unused bits -/

/-- How many bits of a kind's word its tag and fields cover: they are the lowest ones (R53 to R57). -/
def Kind.usedBits : Kind → Nat
  | .load => 31
  | .write => 37
  | .read => 28
  | .bitrev => 15

theorem unusedMask_eq_shiftLeft (k : Kind) : k.unusedMask = BitVec.allOnes 40 <<< k.usedBits := by
  cases k <;> rfl

theorem unusedMask_getLsbD (k : Kind) (j : Nat) :
    k.unusedMask.getLsbD j = (decide (j < 40) && decide (k.usedBits ≤ j)) := by
  rw [unusedMask_eq_shiftLeft, BitVec.getLsbD_shiftLeft, BitVec.getLsbD_allOnes, Bool.eq_iff_iff]
  simp only [Bool.and_eq_true, Bool.not_eq_true', decide_eq_true_eq, decide_eq_false_iff_not]
  omega

/-- To clear a word's unused bits is to keep its used ones. -/
theorem toNat_and_not_unusedMask (w : InstrWord) (k : Kind) :
    (w &&& ~~~k.unusedMask).toNat = w.toNat % 2 ^ k.usedBits := by
  refine Nat.eq_of_testBit_eq fun j => ?_
  rw [Nat.testBit_mod_two_pow, BitVec.testBit_toNat, BitVec.testBit_toNat, BitVec.getLsbD_and, BitVec.getLsbD_not,
    unusedMask_getLsbD]
  by_cases inWord : j < 40
  · simp [inWord, ← decide_not, Bool.and_comm]
  · simp [BitVec.getLsbD_of_ge w j (not_lt.1 inWord)]

theorem and_not_eq_self_iff {n : Nat} (w m : BitVec n) : w &&& ~~~m = w ↔ w &&& m = 0#n := by
  simp only [BitVec.eq_of_getLsbD_eq_iff, BitVec.getLsbD_and, BitVec.getLsbD_not, BitVec.getLsbD_zero]
  refine forall₂_congr fun j lt => ?_
  cases w.getLsbD j <;> simp [lt]

/-- The unused bits are 0 exactly when the used ones are the whole word. -/
theorem and_unusedMask_eq_zero_iff (w : InstrWord) (k : Kind) :
    w &&& k.unusedMask = 0#40 ↔ w.toNat < 2 ^ k.usedBits := by
  rw [← and_not_eq_self_iff, ← BitVec.toNat_inj, toNat_and_not_unusedMask]
  exact Nat.mod_eq_iff_lt (NeZero.ne _)

/-- The encoder leaves the unused bits 0 (R59). -/
theorem encodeFields_and_unusedMask (r : RawInstr) : encodeFields r &&& r.kind.unusedMask = 0#40 := by
  rw [and_unusedMask_eq_zero_iff]
  obtain ⟨kind, b, c, d⟩ := r
  cases kind with
  | load => rw [encodeFields_load_toNat]; simp only [Kind.usedBits]; omega
  | write => rw [encodeFields_write_toNat]; simp only [Kind.usedBits]; omega
  | read => rw [encodeFields_read_toNat]; simp only [Kind.usedBits]; omega
  | bitrev => rw [encodeFields_bitrev_toNat]; simp only [Kind.usedBits]; omega

section Decoded
variable {w v : InstrWord} {i : Instr} {k : Kind}

theorem extractLsb'_toNat_eq (w : InstrWord) (lo n : Nat) : (w.extractLsb' lo n).toNat = w.toNat / 2 ^ lo % 2 ^ n := by
  rw [BitVec.extractLsb'_toNat, Nat.shiftRight_eq_div_pow]

/-- A decoded word carries its kind's tag. -/
theorem tagOf_of_decode (h : decode w = .instr i) : tagOf w = i.kind.tag := by
  obtain tag | tag | tag | tag | tag := tag_cases w
  · rw [decode_load tag] at h; cases h; exact tag
  · rw [decode_write tag] at h; cases h; exact tag
  · rw [decode_read tag] at h; cases h; exact tag
  · rw [decode_bitrev tag] at h; cases h; exact tag
  · rw [decode_unknown tag] at h; cases h

/-- Every word with a kind's tag decodes to that kind (R58). -/
theorem exists_decode_of_tag (tag : tagOf w = k.tag) : ∃ i, i.kind = k ∧ decode w = .instr i := by
  cases k with
  | load => exact ⟨_, rfl, decode_load tag⟩
  | write => exact ⟨_, rfl, decode_write tag⟩
  | read => exact ⟨_, rfl, decode_read tag⟩
  | bitrev => exact ⟨_, rfl, decode_bitrev tag⟩

/-- Packing the fields of a decoded word gives back its used bits. -/
theorem encode_toNat_of_decode (h : decode w = .instr i) : (encode i).toNat = w.toNat % 2 ^ i.kind.usedBits := by
  have tag := congrArg BitVec.toNat (tagOf_of_decode h)
  rw [tagOf_toNat] at tag
  have fields := extractLsb'_toNat_eq w
  obtain h' | h' | h' | h' | h' := tag_cases w
  · rw [decode_load h'] at h
    cases h
    simp only [encode, Instr.toRaw, encodeFields_load_toNat, fields, Instr.kind, Kind.usedBits]
    change _ = 15 at tag
    omega
  · rw [decode_write h'] at h
    cases h
    simp only [encode, Instr.toRaw, encodeFields_write_toNat, fields, Instr.kind, Kind.usedBits]
    change _ = 8 at tag
    omega
  · rw [decode_read h'] at h
    cases h
    simp only [encode, Instr.toRaw, encodeFields_read_toNat, fields, Instr.kind, Kind.usedBits]
    change _ = 17 at tag
    omega
  · rw [decode_bitrev h'] at h
    cases h
    simp only [encode, Instr.toRaw, encodeFields_bitrev_toNat, fields, Instr.kind, Kind.usedBits]
    change _ = 25 at tag
    omega
  · rw [decode_unknown h'] at h
    cases h

/-- Encoding what a word decodes to clears its unused bits. -/
theorem encode_of_decode (h : decode w = .instr i) : encode i = w &&& ~~~i.kind.unusedMask :=
  BitVec.eq_of_toNat_eq ((encode_toNat_of_decode h).trans (toNat_and_not_unusedMask w i.kind).symm)

/-- Settles O2: packing the decoded fields gives the used bits, which are the word when the others are 0. -/
theorem encodeDecodeClearsUnusedBits : Obligations.EncodeDecodeClearsUnusedBits := by
  intro w i h
  have cleared := encode_of_decode h
  exact ⟨cleared, by rw [cleared, and_not_eq_self_iff]⟩

/-- The tag stands in used bits of every kind. -/
theorem tagOf_and_not_unusedMask (w : InstrWord) (k : Kind) : tagOf (w &&& ~~~k.unusedMask) = tagOf w := by
  apply BitVec.eq_of_toNat_eq
  rw [tagOf_toNat, tagOf_toNat, toNat_and_not_unusedMask]
  cases k <;> simp only [Kind.usedBits] <;> omega

/-- Words of one kind that differ only in unused bits decode to the same instruction (decision D5). -/
theorem decode_congr_of_cleared (tag : tagOf w = k.tag) (same : w &&& ~~~k.unusedMask = v &&& ~~~k.unusedMask) :
    ∃ i, i.kind = k ∧ decode w = .instr i ∧ decode v = .instr i := by
  have tag' : tagOf v = k.tag := by rw [← tagOf_and_not_unusedMask v k, ← same, tagOf_and_not_unusedMask, tag]
  obtain ⟨i, kind, decoded⟩ := exists_decode_of_tag tag
  obtain ⟨j, kind', decoded'⟩ := exists_decode_of_tag tag'
  have encoded : encode i = encode j := by rw [encode_of_decode decoded, encode_of_decode decoded', kind, kind', same]
  have ij : i = j := DecodeResult.instr.inj (by rw [← decode_encode, encoded, decode_encode])
  exact ⟨i, kind, decoded, by rw [decoded', ij]⟩

end Decoded

/-! ### The bytes -/

theorem wordOfBytes_toNat (b0 b1 b2 b3 b4 : Byte) : (wordOfBytes b0 b1 b2 b3 b4).toNat =
    b0.toNat + 2 ^ 8 * b1.toNat + 2 ^ 16 * b2.toNat + 2 ^ 24 * b3.toNat + 2 ^ 32 * b4.toNat := by
  rw [wordOfBytes, BitVec.toNat_ofNat]
  omega

theorem bytesOfWord_map_toNat (w : InstrWord) : (bytesOfWord w).map BitVec.toNat =
    [w.toNat % 256, w.toNat / 2 ^ 8 % 256, w.toNat / 2 ^ 16 % 256, w.toNat / 2 ^ 24 % 256, w.toNat / 2 ^ 32 % 256] := by
  simp only [bytesOfWord, List.map_cons, List.map_nil, extractLsb'_toNat_eq, Nat.pow_zero, Nat.div_one, Nat.reducePow]

/-- Taking a word from its own bytes gives it back, and the bytes after it (R36, R50). -/
theorem takeWord_bytesOfWord (w : InstrWord) (rest : List Byte) : takeWord (bytesOfWord w ++ rest) = some (w, rest) := by
  have word : wordOfBytes (w.extractLsb' 0 8) (w.extractLsb' 8 8) (w.extractLsb' 16 8) (w.extractLsb' 24 8)
      (w.extractLsb' 32 8) = w := by
    apply BitVec.eq_of_toNat_eq
    simp only [wordOfBytes_toNat, extractLsb'_toNat_eq]
    omega
  simp [bytesOfWord, takeWord, word]

/-- Settles O6: the packed sum of each kind is below the word's size, and its used bits are all it has. -/
theorem encodePacksMaskedFields : Obligations.EncodePacksMaskedFields :=
  ⟨fun b c d => ⟨encodeFields_load_toNat b c d, encodeFields_write_toNat b c d, encodeFields_read_toNat b c d,
    encodeFields_bitrev_toNat b c d⟩, encodeFields_and_unusedMask, bytesOfWord_map_toNat⟩

/-- Settles O9: the six vectors, evaluated. -/
theorem specWordsDecodeAsGiven : Obligations.SpecWordsDecodeAsGiven := by
  unfold Obligations.SpecWordsDecodeAsGiven
  decide

end Sys2Proof

namespace Sys2Proof.Machine

variable {s : State}

theorem drop_eq_cons_of_getElem? {bytes : List Byte} {n : Nat} {b : Byte} (h : bytes[n]? = some b) :
    bytes.drop n = b :: bytes.drop (n + 1) := by
  obtain ⟨lt, rfl⟩ := List.getElem?_eq_some_iff.1 h
  exact List.drop_eq_getElem_cons lt

/-- Settles O7: the five bytes at pc are the digits of the fetched word in base 256. -/
theorem fetchIsLittleEndian : Obligations.FetchIsLittleEndian := by
  intro s
  refine ⟨(fetch_eq_none s).2, fun b0 b1 b2 b3 b4 h0 h1 h2 h3 h4 =>
    ⟨wordOfBytes b0 b1 b2 b3 b4, ?_, wordOfBytes_toNat b0 b1 b2 b3 b4, ?_⟩⟩
  · rw [State.fetch, drop_eq_cons_of_getElem? h0, drop_eq_cons_of_getElem? h1, drop_eq_cons_of_getElem? h2,
      drop_eq_cons_of_getElem? h3, drop_eq_cons_of_getElem? h4]
    rfl
  · simp only [← BitVec.toNat_inj, extractLsb'_toNat_eq, wordOfBytes_toNat]
    omega

/-- A word whose bytes stand at pc is fetched (R36, R50). -/
theorem fetch_of_image {before after : List Byte} {w : InstrWord} (image : s.image = before ++ bytesOfWord w ++ after)
    (pc : s.pc = before.length) : s.fetch = some w := by
  rw [State.fetch, image, pc, List.append_assoc, List.drop_left, takeWord_bytesOfWord]
  rfl

/-- Settles O8: the word is taken from its own bytes, and the encoding decodes to its instruction. -/
theorem encodedBytesAreFetchedBack : Obligations.EncodedBytesAreFetchedBack := by
  intro s i before after image pc
  refine ⟨fetch_of_image image pc, decodeBytes_eq_instr_iff.2 ⟨encode i, ?_, decode_encode i⟩⟩
  rw [image, pc, List.append_assoc, List.drop_left, takeWord_bytesOfWord]

/-- A placed word is the one fetched, wherever pc stands (log entry 5). -/
theorem fetch_placeWord (s : State) (w : InstrWord) : (s.placeWord w).fetch = some w := by
  refine fetch_of_image (before := s.image.take s.pc ++ List.replicate (s.pc - s.image.length) 0#8) rfl ?_
  simp only [placeWord_pc, List.length_append, List.length_take, List.length_replicate]
  omega

/-- Settles O3: the mask is the bits above the used ones; words equal in the used ones decode alike, so that a step from
either executes the same instruction; and the encoder's sums have used bits only. -/
theorem unusedBitsAreIgnored : Obligations.UnusedBitsAreIgnored := by
  refine ⟨fun k j => ?_, fun k w v tag same => ⟨decode_congr_of_cleared tag same, fun s => ?_⟩,
    encodeFields_and_unusedMask⟩
  · rw [unusedMask_getLsbD]
    cases k <;> rfl
  · obtain ⟨i, -, decoded, decoded'⟩ := decode_congr_of_cleared tag same
    obtain ⟨t, executed⟩ := exists_exec_eq_next i (s.placeWord w)
    have executed' := exec_withHost (image := (s.placeWord v).image) (strict := s.cfg.strict) executed
    refine ⟨t, t.withHost (s.placeWord v).image s.cfg.strict, ?_, ?_, ?_⟩
    · rw [step_of_instr rfl (fetch_placeWord s w) decoded, executed]
    · rw [step_of_instr rfl (fetch_placeWord s v) decoded', ← executed']
      rfl
    · simp only [State.withHost]
      rw [exec_cfg executed]
      rfl

end Sys2Proof.Machine
end

