-- ==== Sys2Proof/Proofs/Ports.lean ====
section
/-!
The six parts and their ports (spec/40_fetch_decode_execute.md section 2, decision D7): the decode port's record is
that of the decoded instruction, the alu's functions are exact, and the joined parts do to the state what exec does.
-/

namespace Sys2Proof.Machine

variable {s : State} {w : InstrWord} {i j : Instr}

/-- The record the decode port gives for an instruction: its fields zero-extended, those it does not use 0 (R90). -/
def portRecord : Instr → DecodeRecord
  | .load b c => ⟨.load, b.setWidth 13, c.setWidth 27, 0#5⟩
  | .write b c => ⟨.write, b.setWidth 13, c, 0#5⟩
  | .read b c d => ⟨.read, b, c.setWidth 27, d⟩
  | .bitrev b c => ⟨.bitrev, b.setWidth 13, c.setWidth 27, 0#5⟩

/-- The record for a word that no kind has. -/
def unknownRecord : DecodeRecord := ⟨.unknown, 0#13, 0#27, 0#5⟩

theorem codecDecode_of_instr (h : decode w = .instr i) : codecDecode w = portRecord i := by
  obtain tag | tag | tag | tag | tag := tag_cases w
  · rw [decode_load tag] at h
    cases h
    exact if_pos tag
  · rw [decode_write tag] at h
    cases h
    change w.extractLsb' 0 5 = 8#5 at tag
    simp [codecDecode, tag, portRecord]
  · rw [decode_read tag] at h
    cases h
    change w.extractLsb' 0 5 = 17#5 at tag
    simp [codecDecode, tag, portRecord]
  · rw [decode_bitrev tag] at h
    cases h
    change w.extractLsb' 0 5 = 25#5 at tag
    simp [codecDecode, tag, portRecord]
  · rw [decode_unknown tag] at h
    cases h

theorem codecDecode_of_unknown {t : BitVec 5} (h : decode w = .unknownOpcode t) : codecDecode w = unknownRecord := by
  obtain ⟨-, load, write, read, bitrev⟩ := decode_eq_unknownOpcode_iff.1 h
  exact (if_neg load).trans ((if_neg write).trans ((if_neg read).trans (if_neg bitrev)))

theorem portRecord_kind_ne_unknown (i : Instr) : (portRecord i).kind ≠ .unknown := by
  cases i <;> simp [portRecord]

/-- Zero-extension keeps a field: cutting back to the field's width gives it again. -/
theorem setWidth_back {n m : Nat} (le : n ≤ m) (x : BitVec n) : (x.setWidth m).setWidth n = x := by
  rw [BitVec.setWidth_setWidth_of_le x le, BitVec.setWidth_eq]

theorem setWidth_injective {n m : Nat} (le : n ≤ m) {x y : BitVec n} (h : x.setWidth m = y.setWidth m) : x = y := by
  rw [← setWidth_back le x, h, setWidth_back le y]

theorem portRecord_injective (h : portRecord i = portRecord j) : i = j := by
  cases i <;> cases j <;> simp only [portRecord, DecodeRecord.mk.injEq, reduceCtorEq, false_and] at h
  case load.load =>
    obtain ⟨-, b, c, -⟩ := h
    rw [setWidth_injective (by decide) b, setWidth_injective (by decide) c]
  case write.write =>
    obtain ⟨-, b, c, -⟩ := h
    rw [setWidth_injective (by decide) b, c]
  case read.read =>
    obtain ⟨-, b, c, d⟩ := h
    rw [b, setWidth_injective (by decide) c, d]
  case bitrev.bitrev =>
    obtain ⟨-, b, c, -⟩ := h
    rw [setWidth_injective (by decide) b, setWidth_injective (by decide) c]

/-- The decode port and decode tell the same instructions apart. -/
theorem decode_eq_instr_iff_codecDecode : decode w = .instr i ↔ codecDecode w = portRecord i := by
  refine ⟨codecDecode_of_instr, fun record => ?_⟩
  cases decoded : decode w with
  | unknownOpcode t =>
    rw [codecDecode_of_unknown decoded] at record
    exact absurd (congrArg DecodeRecord.kind record).symm (portRecord_kind_ne_unknown i)
  | instr j =>
    rw [codecDecode_of_instr decoded] at record
    rw [portRecord_injective record]

theorem exists_unknownOpcode_iff_codecDecode : (∃ t, decode w = .unknownOpcode t) ↔ codecDecode w = unknownRecord := by
  refine ⟨fun ⟨_, rejected⟩ => codecDecode_of_unknown rejected, fun record => ?_⟩
  cases decoded : decode w with
  | unknownOpcode t => exact ⟨t, rfl⟩
  | instr i =>
    rw [codecDecode_of_instr decoded] at record
    exact absurd (congrArg DecodeRecord.kind record) (portRecord_kind_ne_unknown i)

/-- Settles O51: each clause is the port's record for one kind of instruction, or for none. -/
theorem decodePortAgreesWithDecode : Obligations.DecodePortAgreesWithDecode :=
  fun _ => ⟨fun _ _ => decode_eq_instr_iff_codecDecode, fun _ _ => decode_eq_instr_iff_codecDecode,
    fun _ _ _ => decode_eq_instr_iff_codecDecode, fun _ _ => decode_eq_instr_iff_codecDecode,
    exists_unknownOpcode_iff_codecDecode⟩

/-- The 33-bit sum of a 32-bit base and a 13-bit offset cannot overflow (R92). -/
theorem aluAddrAdd_toNat (base : Word) (off : BitVec 13) : (aluAddrAdd base off).toNat = base.toNat + off.toNat := by
  rw [aluAddrAdd, BitVec.toNat_add, BitVec.toNat_setWidth, BitVec.toNat_setWidth]
  omega

/-- Settles O50: the widths hold the sum, and the mirrored bits are those of the core's reversal. -/
theorem aluSumIsExact : Obligations.AluSumIsExact :=
  ⟨aluAddrAdd_toNat, fun v _ lt => bitReverse32_toNat_getLsbD v lt⟩

/-- What the parts behind the decode port do with its record: the store and the register write, and the pc advance. -/
def portEffect (r : DecodeRecord) (s : State) : State :=
  let q := lsuRequest r (regReadPort s (portAIndex r)) (regReadPort s (portBIndex r))
  { regWritePort (lsuStore s q) (regWriteData r (lsuReadData s q)) with pc := s.nextPc }

/-- What the parts do with each kind's record, the fields cut back from the widths of the record (R91 to R93). -/
theorem portEffect_load (b : RegIdx) (c : BitVec 21) (s : State) : portEffect (portRecord (.load b c)) s =
    { s.setReg ((b.setWidth 13).setWidth 5) ((c.setWidth 27).setWidth 32) with pc := s.pc + 5 } := rfl

theorem portEffect_write (b : RegIdx) (c : BitVec 27) (s : State) : portEffect (portRecord (.write b c)) s =
    { s.memWrite (c.setWidth 33).toNat (s.getReg ((b.setWidth 13).setWidth 5)) with pc := s.pc + 5 } := rfl

theorem portEffect_read (b : BitVec 13) (c d : RegIdx) (s : State) : portEffect (portRecord (.read b c d)) s =
    { s.setReg d (s.memRead (aluAddrAdd (s.getReg ((c.setWidth 27).setWidth 5)) b).toNat) with pc := s.pc + 5 } := rfl

theorem portEffect_bitrev (b c : RegIdx) (s : State) : portEffect (portRecord (.bitrev b c)) s =
    { s.memWrite ((s.getReg ((c.setWidth 27).setWidth 5)).setWidth 33).toNat
        (aluBitrev32 (s.getReg ((b.setWidth 13).setWidth 5))) with pc := s.pc + 5 } := rfl

theorem advancePc_memWrite (s : State) (a : Nat) (v : Word) :
    (s.memWrite a v).advancePc = { s.memWrite a v with pc := s.pc + 5 } := by rw [State.advancePc, memWrite_pc]

/-- The parts do with an instruction's record what its meaning does (R84, R85, R91 to R94): the record's widths lose
nothing of a field, and the 33-bit address nothing of an address. -/
theorem exec_eq_portEffect (i : Instr) (s : State) : exec i s = .next (portEffect (portRecord i) s) := by
  cases i with
  | load b c =>
    have immediate : (c.setWidth 27).setWidth 32 = immOperand c := by simp [immOperand]
    rw [exec_load, portEffect_load, setWidth_back (by decide), immediate]
    rfl
  | write b c =>
    rw [exec_write, portEffect_write, setWidth_back (by decide),
      BitVec.toNat_setWidth_of_le (by decide), advancePc_memWrite]
    rfl
  | read b c d =>
    rw [exec_read, portEffect_read, setWidth_back (by decide), aluAddrAdd_toNat]
    rfl
  | bitrev b c =>
    rw [exec_bitrev, portEffect_bitrev, setWidth_back (by decide), setWidth_back (by decide),
      BitVec.toNat_setWidth_of_le (by decide), advancePc_memWrite]
    rfl

theorem datapathStep_of_not_running (h : s.status ≠ .running) : datapathStep s = s := if_neg h

theorem more_eq_true_of_fetch (h : s.fetch = some w) : s.more = true :=
  decide_eq_true (pc_add_five_le_of_fetch h)

theorem datapathStep_of_fetch_none (running : s.status = .running) (h : s.fetch = none) :
    datapathStep s = s.halt .haltedComplete := by
  have noMore : s.more = false := decide_eq_false (not_le.2 ((fetch_eq_none s).1 h))
  simp [datapathStep, running, noMore]

theorem datapathStep_of_unknown {t : BitVec 5} (running : s.status = .running) (h : s.fetch = some w)
    (d : decode w = .unknownOpcode t) : datapathStep s = s.halt .haltedUnknownOpcode := by
  simp [datapathStep, running, more_eq_true_of_fetch h, h, codecDecode_of_unknown d, unknownRecord]

theorem datapathStep_of_instr (running : s.status = .running) (h : s.fetch = some w) (d : decode w = .instr i) :
    datapathStep s = portEffect (portRecord i) s := by
  simp [datapathStep, running, more_eq_true_of_fetch h, h, codecDecode_of_instr d, portRecord_kind_ne_unknown, portEffect]

/-- Settles O49: in each of the four things a step can do the ports give the same state. -/
theorem datapathTakesTheSameStep : Obligations.DatapathTakesTheSameStep := by
  intro s
  obtain ⟨t, h⟩ := exists_step_eq_next s
  rw [h]
  congr 1
  obtain ⟨idle, rfl⟩ | ⟨running, none, rfl⟩ | ⟨running, ⟨w, tag, fetched, rejected⟩, rfl⟩ |
    ⟨running, w, i, fetched, decoded, executed⟩ := step_cases h
  · exact (datapathStep_of_not_running idle).symm
  · exact (datapathStep_of_fetch_none running none).symm
  · exact (datapathStep_of_unknown running fetched rejected).symm
  · rw [datapathStep_of_instr running fetched decoded]
    exact Host.Outcome.next.inj (executed.symm.trans (exec_eq_portEffect i s))

end Sys2Proof.Machine
end

