-- ==== Sys2Proof/Proofs/AssembledRuns.lean ====
section
/-!
Assembler, codec and core together: an assembled image is a row of encoded words, so that a run of it, always at a
word's place, meets no unknown opcode and ends at the image's end.
-/

namespace Sys2Proof.Machine

variable {s : State}

/-- To drop 5 k bytes of an image is to drop k words. -/
theorem drop_imageOfWords (ws : List InstrWord) (k : Nat) :
    (imageOfWords ws).drop (5 * k) = imageOfWords (ws.drop k) := by
  induction k generalizing ws with
  | zero => rfl
  | succ k ih =>
    cases ws with
    | nil => rfl
    | cons w ws => exact ih ws

/-- In an image of words the fetch at the place of word k finds word k, if there is one. -/
theorem fetch_imageOfWords {ws : List InstrWord} {k : Nat} (image : s.image = imageOfWords ws) (pc : s.pc = 5 * k) :
    s.fetch = ws[k]? := by
  rw [State.fetch, image, pc, drop_imageOfWords, ← List.head?_drop]
  cases ws.drop k with
  | nil => rfl
  | cons w rest =>
    rw [imageOfWords, List.flatMap_cons, takeWord_bytesOfWord]
    rfl

/-- Every word of an assembly is an encoded one (R59, R71). -/
theorem exists_encodeFields_of_mem_wordsOf {rs : List LineResult} {w : InstrWord} (h : w ∈ wordsOf rs) :
    ∃ r, w = encodeFields r := by
  induction rs with
  | nil => cases h
  | cons r rs ih =>
    cases r with
    | nothing => exact ih h
    | malformed => exact ih h
    | instr r =>
      obtain rfl | h := List.mem_cons.1 h
      · exact ⟨r, rfl⟩
      · exact ih h

theorem length_imageOfWords (ws : List InstrWord) : (imageOfWords ws).length = 5 * ws.length := by
  induction ws with
  | nil => rfl
  | cons w ws ih =>
    have image : imageOfWords (w :: ws) = bytesOfWord w ++ imageOfWords ws := rfl
    rw [image, List.length_append, ih, List.length_cons]
    simp only [bytesOfWord, List.length_cons, List.length_nil]
    omega

/-- No word's place of an assembled image holds an unknown word. -/
theorem not_atUnknownWord_of_assembled {rs : List LineResult} (image : s.image = imageOfWords (wordsOf rs))
    (aligned : s.pc % 5 = 0) : ¬s.atUnknownWord := by
  rintro ⟨w, tag, fetched, rejected⟩
  rw [fetch_imageOfWords image (k := s.pc / 5) (by omega)] at fetched
  obtain ⟨r, rfl⟩ := exists_encodeFields_of_mem_wordsOf (List.mem_of_getElem? fetched)
  rw [decode_encodeFields] at rejected
  cases rejected

/-- Settles O60: the run halts with its invariant, under which it stands at no unknown word; so it is complete, and
its pc, a word's place with no whole word left, is the end of an image of whole words. -/
theorem assembledProgramsRunToCompletion : Obligations.AssembledProgramsRunToCompletion := by
  intro text cfg preset s booted
  obtain ⟨t, run, halted⟩ := boot_run_halts booted
  have inv : t.Inv := (boot_inv booted).run run
  have image : t.image = (assemble text).image := (run_image run).trans (boot_image booted)
  have complete : t.status = .haltedComplete := by
    cases status : t.status with
    | running => exact absurd status (halted_iff.1 halted)
    | haltedComplete => rfl
    | haltedUnknownOpcode => exact absurd (inv.unknownAtPc status) (not_atUnknownWord_of_assembled image inv.aligned)
  refine ⟨t, run, complete, ?_⟩
  have whole := length_imageOfWords (wordsOf ((sourceLines text).map assembleLine))
  change (assemble text).image.length = _ at whole
  have atEnd := inv.completeAtEnd complete
  have inImage := inv.inImage
  have aligned := inv.aligned
  rw [image] at atEnd inImage
  omega

end Sys2Proof.Machine
end

