-- ==== Sys2Proof/Proofs/CanonicalMemory.lean ====
section
/-!
The canonical form of a memory (log entry 1): it lists exactly the cells that do not read as 0, so that memories in it
which read alike are the same data.
-/

namespace Sys2Proof.Machine

variable {m n : Memory} {lo a k : Nat} {v w : Word}

theorem wfFrom_cons_iff : Memory.wfFrom lo ((k, v) :: m) = true ↔ lo ≤ k ∧ v ≠ 0#32 ∧ Memory.wfFrom (k + 1) m = true := by
  simp [Memory.wfFrom, and_assoc]

/-- Below its first index a memory reads as 0. -/
theorem read_eq_zero_of_lt (h : Memory.wfFrom lo m = true) (lt : a < lo) : m.read a = 0#32 := by
  induction m generalizing lo with
  | nil => rfl
  | cons p m ih =>
    obtain ⟨k, v⟩ := p
    obtain ⟨le, -, rest⟩ := wfFrom_cons_iff.1 h
    rw [Memory.read, if_neg (by omega)]
    exact ih rest (by omega)

theorem read_cons_self : Memory.read ((k, v) :: m) k = v := if_pos rfl

/-- If every cell read of a canonical memory is 0, no cell is listed. -/
theorem eq_nil_of_read_eq_zero (h : Memory.wfFrom lo m = true) (zeros : ∀ a, m.read a = 0#32) : m = [] := by
  cases m with
  | nil => rfl
  | cons p m =>
    obtain ⟨k, v⟩ := p
    obtain ⟨-, nonzero, -⟩ := wfFrom_cons_iff.1 h
    exact absurd (read_cons_self.symm.trans (zeros k)) nonzero

/-- The first index of a canonical memory is not above one that reads as other than 0. -/
theorem first_le_of_read_ne_zero (h : Memory.wfFrom lo ((k, v) :: m) = true)
    (nonzero : Memory.read ((k, v) :: m) a ≠ 0#32) : k ≤ a := by
  by_contra lt
  obtain ⟨-, nonzeroV, rest⟩ := wfFrom_cons_iff.1 h
  have fromK : Memory.wfFrom k ((k, v) :: m) = true := wfFrom_cons_iff.2 ⟨Nat.le_refl k, nonzeroV, rest⟩
  exact nonzero (read_eq_zero_of_lt fromK (by omega))

/-- Canonical memories that read alike: their first cells are the same, and so, both reading 0 there, are the rests. -/
theorem eq_of_wfFrom_of_read_eq (hm : Memory.wfFrom lo m = true) (hn : Memory.wfFrom lo n = true)
    (same : ∀ a, m.read a = n.read a) : m = n := by
  induction m generalizing lo n with
  | nil => exact (eq_nil_of_read_eq_zero hn fun a => (same a).symm).symm
  | cons p m ih =>
    obtain ⟨k, v⟩ := p
    cases n with
    | nil => exact eq_nil_of_read_eq_zero hm same
    | cons q n =>
      obtain ⟨j, w⟩ := q
      obtain ⟨-, nonzeroV, restM⟩ := wfFrom_cons_iff.1 hm
      obtain ⟨-, nonzeroW, restN⟩ := wfFrom_cons_iff.1 hn
      have jk : j ≤ k := first_le_of_read_ne_zero hn (by rwa [← same, read_cons_self])
      have kj : k ≤ j := first_le_of_read_ne_zero hm (by rwa [same, read_cons_self])
      obtain rfl : k = j := Nat.le_antisymm kj jk
      obtain rfl : v = w := by simpa [read_cons_self] using same k
      have rests : m = n := by
        refine ih restM restN fun a => ?_
        by_cases at_k : a = k
        · rw [at_k, read_eq_zero_of_lt restM (Nat.lt_succ_self k), read_eq_zero_of_lt restN (Nat.lt_succ_self k)]
        · simpa [Memory.read, Ne.symm at_k] using same a
      rw [rests]

/-- Settles O13: a canonical memory lists exactly the cells that do not read as 0, in rising order. -/
theorem canonicalMemoriesAreEqual : Obligations.CanonicalMemoriesAreEqual :=
  fun _ _ hm hn same => eq_of_wfFrom_of_read_eq hm hn same

end Sys2Proof.Machine
end

