-- ==== Sys2Proof/Proofs/Read.lean ====
section
/-!
READ (spec/42_memory_access.md R111, R112): the exact address sum of decision D4, the instruction's format and source
form, and its effect as one register write and the pc advance.
-/

namespace Sys2Proof.Machine

theorem baseOffAddr_eq (s : State) (c : RegIdx) (b : BitVec 13) : baseOffAddr s c b = (s.getReg c).toNat + b.toNat := rfl

theorem kindOfMnemonic_READ : kindOfMnemonic "READ".toList = some .read := by decide

/-- Settles O16: 32 and 13 bits bound the sum; at 2^32 or above it is past every legal MEM_SIZE, where MemRead gives
0. -/
theorem readAddressIsExactSum : Obligations.ReadAddressIsExactSum := by
  intro s b c
  refine ⟨rfl, by rw [baseOffAddr_eq]; omega, fun legal high d => ⟨_, exec_read b c d s, ?_⟩⟩
  obtain ⟨-, small⟩ := legal
  rw [advancePc_getReg, setReg_getReg_same]
  exact memRead_of_le (small.trans high)

/-- Settles O17: the decode law of READ's tag, the operand mapping of its mnemonic, and the laws of the one register
write, of what MemRead gives on either side of the border; the advance moves pc alone. -/
theorem readLoadsCellOrZero : Obligations.ReadLoadsCellOrZero := by
  refine ⟨fun w => decode_read, fun td tc tb d c b hd hc hb => ?_,
    fun b c d s => ⟨_, exec_read b c d s, fun lt => ?_, fun le => ?_, fun r ne => ?_, ?_⟩⟩
  · obtain ⟨-, -, read, -⟩ := operandsMapOntoFields "READ".toList td tc tb d c b hd hc hb
    exact read kindOfMnemonic_READ
  · rw [advancePc_getReg, setReg_getReg_same, memRead_of_lt lt]
  · rw [advancePc_getReg, setReg_getReg_same, memRead_of_le le]
  · rw [advancePc_getReg, setReg_getReg_other s _ ne]
  · simp

end Sys2Proof.Machine
end

