-- ==== Sys2Proof/Proofs/Dataflow.lean ====
section
/-!
How values pass between instructions (spec/10_state.md sections 1 and 4, spec/20_memory.md section 2,
spec/70_reset_and_hazards.md section 3): which registers and cells an instruction depends on and changes, and what a
later one finds there.
-/

namespace Sys2Proof.Machine

variable {s t : State} {i : Instr}

/-! ### The reversal undone -/

/-- Mirroring the bits twice puts each back in its place. -/
theorem bitReverse32_bitReverse32 (v : Word) : bitReverse32 (bitReverse32 v.toNat).toNat = v := by
  refine BitVec.eq_of_getLsbD_eq fun j lt => ?_
  have back : 31 - (31 - j) = j := by omega
  rw [bitReverse32_toNat_getLsbD _ lt, bitReverse32_toNat_getLsbD v (by omega), back]

/-- Settles O19: a value below 2^32 is that of a 32-bit word. -/
theorem bitReverse32IsItsOwnInverse : Obligations.BitReverse32IsItsOwnInverse := by
  intro u lt
  have word : (BitVec.ofNat 32 u).toNat = u := Nat.mod_eq_of_lt lt
  have twice := bitReverse32_bitReverse32 (BitVec.ofNat 32 u)
  rw [word] at twice
  rw [twice, word]

/-! ### Cells -/

/-- An instruction changes only the cell it stores to (R31). -/
theorem exec_memRead_of_storeAddr_ne {a : Nat} (h : exec i s = .next t) (elsewhere : storeAddr i s ≠ some a) :
    t.memRead a = s.memRead a := by
  obtain ⟨b, c, rfl, rfl⟩ | ⟨b, c, rfl, rfl⟩ | ⟨b, c, d, rfl, rfl⟩ | ⟨b, c, rfl, rfl⟩ := exec_cases h
  · rfl
  · rw [advancePc_memRead, memWrite_memRead_other]
    rintro rfl
    exact elsewhere rfl
  · rfl
  · rw [advancePc_memRead, memWrite_memRead_other]
    rintro rfl
    exact elsewhere rfl

/-- Only a WRITE or a BITREV has a store address. -/
theorem kind_of_storeAddr {a : Nat} (h : storeAddr i s = some a) : i.kind = .write ∨ i.kind = .bitrev := by
  cases i with
  | load b c => cases h
  | write b c => exact .inl rfl
  | read b c d => cases h
  | bitrev b c => exact .inr rfl

/-- At or above MEM_SIZE every cell reads as 0, before an instruction and after. -/
theorem exec_memRead_of_le {a : Nat} (h : exec i s = .next t) (le : s.cfg.memSize ≤ a) : t.memRead a = s.memRead a := by
  rw [memRead_of_le le, memRead_of_le (by rwa [exec_cfg h])]

/-- Settles O23: a step that changes a cell executed an instruction, which stores to that cell, in bounds. -/
theorem onlyStoresChangeMemory : Obligations.OnlyStoresChangeMemory := by
  intro s t a h changed
  obtain ⟨-, rfl⟩ | ⟨-, -, rfl⟩ | ⟨-, -, rfl⟩ | ⟨running, w, i, fetched, decoded, executed⟩ := step_cases h
  · exact absurd rfl changed
  · exact absurd rfl changed
  · exact absurd rfl changed
  · have stored : storeAddr i s = some a := by
      by_contra elsewhere
      exact changed (exec_memRead_of_storeAddr_ne executed elsewhere)
    have inBounds : a < s.cfg.memSize := by
      by_contra le
      exact changed (exec_memRead_of_le executed (not_lt.1 le))
    exact ⟨running, w, i, fetched, decoded, kind_of_storeAddr stored, stored, inBounds⟩

section Executed
variable {b c d : RegIdx}

/-- The cell a WRITE stored to, in bounds. -/
theorem memRead_of_exec_write {a : BitVec 27} (h : exec (.write b a) s = .next t) (lt : a.toNat < s.cfg.memSize) :
    t.memRead a.toNat = s.getReg b := by
  rw [exec_write] at h
  cases h
  rw [advancePc_memRead]
  exact memWrite_memRead_same lt

/-- The cell a BITREV stored to, in bounds. -/
theorem memRead_of_exec_bitrev (h : exec (.bitrev b c) s = .next t) (lt : (s.getReg c).toNat < s.cfg.memSize) :
    t.memRead (s.getReg c).toNat = bitReverse32 (s.getReg b).toNat := by
  rw [exec_bitrev] at h
  cases h
  rw [advancePc_memRead]
  exact memWrite_memRead_same lt

theorem getReg_of_exec_bitrev (h : exec (.bitrev b c) s = .next t) (r : RegIdx) : t.getReg r = s.getReg r := by
  rw [exec_bitrev] at h
  cases h
  rw [advancePc_getReg, memWrite_getReg]

/-- The register a READ loaded. -/
theorem getReg_of_exec_read {off : BitVec 13} (h : exec (.read off c d) s = .next t) :
    t.getReg d = s.memRead ((s.getReg c).toNat + off.toNat) := by
  rw [exec_read] at h
  cases h
  rw [advancePc_getReg, setReg_getReg_same, baseOffAddr_eq]

theorem getReg_of_exec_read_other {off : BitVec 13} {r : RegIdx} (h : exec (.read off c d) s = .next t) (ne : r ≠ d) :
    t.getReg r = s.getReg r := by
  rw [exec_read] at h
  cases h
  rw [advancePc_getReg, setReg_getReg_other s _ ne]

/-- The register a LOAD wrote. -/
theorem getReg_of_exec_load {imm : BitVec 21} (h : exec (.load b imm) s = .next t) : t.getReg b = immOperand imm := by
  rw [exec_load] at h
  cases h
  rw [advancePc_getReg, setReg_getReg_same]

end Executed

/-- Settles O24: the WRITE's cell holds x[b], the instruction between keeps that cell, and READ loads it. -/
theorem readGivesTheValueLastWritten : Obligations.ReadGivesTheValueLastWritten := by
  intro b c d a off i s t u v lt written between elsewhere address read
  calc v.getReg d
    _ = u.memRead (baseOffAddr u c off) := getReg_of_exec_read read
    _ = u.memRead a.toNat := by rw [address]
    _ = t.memRead a.toNat := exec_memRead_of_storeAddr_ne between elsewhere
    _ = s.getReg b := memRead_of_exec_write written lt

/-- Settles O21: each form uses the registers as they are before it, so the second of two instructions those the first
left. -/
theorem sameRegisterFormsUseOldValue : Obligations.SameRegisterFormsUseOldValue := by
  intro s
  refine ⟨fun b c => ⟨_, exec_read b c c s, getReg_of_exec_read (exec_read b c c s)⟩,
    fun b lt => ⟨_, exec_bitrev b b s, memRead_of_exec_bitrev (exec_bitrev b b s) lt⟩, fun b c a lt => ?_⟩
  obtain ⟨t, loaded⟩ := exists_exec_eq_next (.load b c) s
  obtain ⟨u, written⟩ := exists_exec_eq_next (.write b a) t
  refine ⟨t, u, loaded, written, ?_⟩
  rw [memRead_of_exec_write written (by rwa [exec_cfg loaded]), getReg_of_exec_load loaded, immOperand_toNat]

/-- Reversing a register into the cell at x[c] and reading it back into d gives the reversed value. -/
theorem exec_bitrev_read {b c d : RegIdx} {u : State} (lt : (s.getReg c).toNat < s.cfg.memSize)
    (reversed : exec (.bitrev b c) s = .next t) (read : exec (.read 0#13 c d) t = .next u) :
    u.getReg d = bitReverse32 (s.getReg b).toNat := by
  rw [getReg_of_exec_read read, getReg_of_exec_bitrev reversed]
  exact memRead_of_exec_bitrev reversed lt

/-- Settles O25: each pair reverses the value, c still holding the address for the second, and two reversals restore
it. -/
theorem bitrevTwiceRestores : Obligations.BitrevTwiceRestores := by
  intro b c d s t u v w lt ne reversed read reversed' read'
  have address : u.getReg c = s.getReg c :=
    (getReg_of_exec_read_other read ne.symm).trans (getReg_of_exec_bitrev reversed c)
  have size : u.cfg = s.cfg := (exec_cfg read).trans (exec_cfg reversed)
  rw [exec_bitrev_read (by rwa [address, size]) reversed' read', exec_bitrev_read lt reversed read,
    bitReverse32_bitReverse32]

/-! ### Registers -/

/-- An instruction writes no register but its destination (R13). -/
theorem exec_getReg_of_not_mem_destRegs (h : exec i s = .next t) {r : RegIdx} (other : r ∉ destRegs i) :
    t.getReg r = s.getReg r := by
  obtain ⟨b, c, rfl, rfl⟩ | ⟨b, c, rfl, rfl⟩ | ⟨b, c, d, rfl, rfl⟩ | ⟨b, c, rfl, rfl⟩ := exec_cases h
  · rw [advancePc_getReg, setReg_getReg_other s _ (by simpa [destRegs] using other)]
  · rw [advancePc_getReg, memWrite_getReg]
  · rw [advancePc_getReg, setReg_getReg_other s _ (by simpa [destRegs] using other)]
  · rw [advancePc_getReg, memWrite_getReg]

/-- The state with other registers. -/
def State.withRegs (s : State) (regs : Vector Word 32) : State := { s with regs := regs }

section WithRegs
variable {regs : Vector Word 32}

/-- A register write and the advance, from states that differ in registers. -/
theorem withRegs_setReg_advancePc (s : State) (d : RegIdx) (v : Word) :
    (∀ r ∈ [d], ((s.withRegs regs).setReg d v).advancePc.getReg r = (s.setReg d v).advancePc.getReg r) ∧
    ((s.withRegs regs).setReg d v).advancePc =
      (s.setReg d v).advancePc.withRegs ((s.withRegs regs).setReg d v).advancePc.regs := by
  refine ⟨fun r mem => ?_, rfl⟩
  obtain rfl := List.mem_singleton.1 mem
  rw [advancePc_getReg, advancePc_getReg, setReg_getReg_same, setReg_getReg_same]

/-- A store and the advance, from states that differ in registers. -/
theorem withRegs_memWrite_advancePc (s : State) (a : Nat) (v : Word) :
    ((s.withRegs regs).memWrite a v).advancePc =
      (s.memWrite a v).advancePc.withRegs ((s.withRegs regs).memWrite a v).advancePc.regs := by
  simp only [memWrite_eq]
  rfl

/-- Where the registers an instruction reads hold the same values, it gives its destination the same value and has the
same effect on everything but registers (R13). -/
theorem exec_withRegs {t' : State} (sources : ∀ r ∈ sourceRegs i, (s.withRegs regs).getReg r = s.getReg r)
    (h : exec i s = .next t) (h' : exec i (s.withRegs regs) = .next t') :
    (∀ r ∈ destRegs i, t'.getReg r = t.getReg r) ∧ t' = t.withRegs t'.regs := by
  cases i with
  | load b c =>
    rw [exec_load] at h h'
    cases h
    cases h'
    exact withRegs_setReg_advancePc s b (immOperand c)
  | write b c =>
    have value := sources b (by simp [sourceRegs])
    rw [exec_write] at h h'
    cases h
    cases h'
    rw [value]
    exact ⟨nofun, withRegs_memWrite_advancePc s (absAddr c) (s.getReg b)⟩
  | read b c d =>
    have base := sources c (by simp [sourceRegs])
    rw [exec_read, baseOffAddr_eq] at h h'
    rw [base] at h'
    cases h
    cases h'
    exact withRegs_setReg_advancePc s d (s.memRead ((s.getReg c).toNat + b.toNat))
  | bitrev b c =>
    have value := sources b (by simp [sourceRegs])
    have address := sources c (by simp [sourceRegs])
    rw [exec_bitrev, regAddr] at h h'
    rw [value, address] at h'
    cases h
    cases h'
    exact ⟨nofun, withRegs_memWrite_advancePc s (s.getReg c).toNat (bitReverse32 (s.getReg b).toNat)⟩

end WithRegs

/-- Settles O22: only the destination is written, and what is written or stored follows from the sources. -/
theorem registersReadAndWrittenAreThoseNamed : Obligations.RegistersReadAndWrittenAreThoseNamed := by
  intro i s s' t t' differ sources h h'
  change s' = s.withRegs s'.regs at differ
  rw [differ] at sources h'
  obtain ⟨dest, rest⟩ := exec_withRegs sources h h'
  exact ⟨fun _ other => exec_getReg_of_not_mem_destRegs h other, dest, rest⟩

end Sys2Proof.Machine
end

