-- ==== Sys2Proof/Proofs/Host.lean ====
section
/-!
The host around a run (spec/70_reset_and_hazards.md section 2, spec/20_memory.md section 6): which start states a boot
takes and what they read as, and the rows and lines of a read-out.
-/

namespace Sys2Proof.Machine

/-! ### Boot -/

section Boot
variable {cfg : Config} {image : List Byte} {p : Preset}

theorem boot_none (legal : cfg.Legal) : boot cfg image none = .started (freshState cfg image) := if_pos legal

theorem boot_illegalMemSize {preset : Option Preset} (illegal : ¬cfg.Legal) :
    boot cfg image preset = .refused .illegalMemSize := if_neg illegal

theorem boot_preset (legal : cfg.Legal) (taken : p.legal cfg = true) :
    boot cfg image (some p) = .started ((freshState cfg image).applyPreset p) :=
  (if_pos legal).trans (if_pos taken)

theorem boot_illegalPreset (legal : cfg.Legal) (bad : p.legal cfg = false) :
    boot cfg image (some p) = .refused .illegalPreset :=
  (if_pos legal).trans (if_neg (Bool.eq_false_iff.1 bad))

/-- The check of decision D11, as a proposition. -/
theorem legal_iff : p.legal cfg = true ↔ p.regs.length = 32 ∧ p.cells.length = cfg.memSize ∧
    (∀ v ∈ p.regs, v < 2 ^ 32) ∧ ∀ v ∈ p.cells, v < 2 ^ 32 := by
  simp only [Preset.legal, Bool.and_eq_true, decide_eq_true_eq, List.all_eq_true, and_assoc]

/-- A given value below 2^32 is the number of its 32-bit word. -/
theorem getElem?_eq_toNat_ofNat {vs : List Nat} {k : Nat} (lt : k < vs.length) (fits : ∀ v ∈ vs, v < 2 ^ 32) :
    vs[k]? = some (BitVec.ofNat 32 (vs.getD k 0)).toNat := by
  rw [List.getD_eq_getElem _ _ lt, List.getElem?_eq_getElem lt, BitVec.toNat_ofNat,
    Nat.mod_eq_of_lt (fits _ (List.getElem_mem lt))]

/-- Reset is idle on a fresh state, which holds the reset values already (R150). -/
theorem freshState_applyReset : (freshState cfg image).applyReset = freshState cfg image := rfl

theorem freshState_getReg (r : RegIdx) : (freshState cfg image).getReg r = 0#32 := applyReset_getReg _ r

/-- The registers of a start state the caller gave read as given (R24). -/
theorem freshState_applyPreset_getReg (legal : p.legal cfg = true) (r : RegIdx) :
    p.regs[r.toNat]? = some (((freshState cfg image).applyPreset p).getReg r).toNat := by
  obtain ⟨count, -, fits, -⟩ := legal_iff.1 legal
  rw [applyPreset_getReg]
  exact getElem?_eq_toNat_ofNat (by omega) fits

/-- The cells of a start state the caller gave read as given (R24). -/
theorem freshState_applyPreset_memRead (legal : p.legal cfg = true) {a : Nat} (lt : a < cfg.memSize) :
    p.cells[a]? = some (((freshState cfg image).applyPreset p).memRead a).toNat := by
  obtain ⟨-, count, -, fits⟩ := legal_iff.1 legal
  have cell := ofCells_read 0 p.cells a
  rw [Nat.zero_add] at cell
  rw [memRead_of_lt (by simpa using lt), applyPreset_mem, cell]
  exact getElem?_eq_toNat_ofNat (by omega) fits

end Boot

/-- Settles O44: without a preset the fresh state; with one the decision's check, and the values it lets through. -/
theorem bootTakesExactlyLegalPresets : Obligations.BootTakesExactlyLegalPresets := by
  refine ⟨fun cfg image legal => ⟨_, boot_none legal, freshState_applyReset, freshState_getReg, fun a => ?_, ?_⟩,
    fun cfg image preset illegal => boot_illegalMemSize illegal, fun cfg image p legal => ⟨fun good => ?_, fun bad => ?_⟩⟩
  · rw [freshState_mem, memory_read_nil]
  · simp
  · have taken := legal_iff.2 good
    refine ⟨_, boot_preset legal taken, freshState_applyPreset_getReg taken,
      fun a lt => freshState_applyPreset_memRead taken lt, ?_⟩
    simp
  · exact boot_illegalPreset legal (Bool.eq_false_iff.2 fun taken => bad (legal_iff.1 taken))

/-! ### The read-out -/

section ReadOut
variable {s : State} {start stop a : Nat}

/-- The rows of the addresses from start to stop. -/
def State.rowsOf (s : State) (start stop : Nat) : List (Nat × Option Word) :=
  (List.range (stop - start + 1)).map fun k => (start + k, s.cellRow (start + k))

theorem readOut_eq_rowsOf (le : start ≤ stop) : s.readOut start stop = .rows (s.rowsOf start stop) := by
  rw [State.readOut, if_neg (by omega), Int.toNat_natCast, Int.toNat_natCast]
  rfl

theorem length_rowsOf : (s.rowsOf start stop).length = stop - start + 1 := by
  rw [State.rowsOf, List.length_map, List.length_range]

/-- The row of an address stands as many places on as the address is above start. -/
theorem getElem?_rowsOf (low : start ≤ a) (high : a ≤ stop) :
    (s.rowsOf start stop)[a - start]? = some (a, s.cellRow a) := by
  have place : start + (a - start) = a := by omega
  rw [State.rowsOf, List.getElem?_map, List.getElem?_range (by omega), Option.map_some, place]

theorem cellRow_of_lt (lt : a < s.cfg.memSize) : s.cellRow a = some (s.memRead a) := by
  rw [memRead_of_lt lt]
  exact if_pos (inBounds_eq_true_iff.2 lt)

theorem cellRow_of_le (le : s.cfg.memSize ≤ a) : s.cellRow a = none := by
  simp [State.cellRow, inBounds_eq_false_iff.2 le]

/-- After the header the dump has a line per row (R45). -/
theorem getElem?_dumpLines_succ (l : List (Nat × Option Word)) (k : Nat) : (dumpLines l)[k + 1]? = l[k]?.map dumpRow := by
  rw [dumpLines, List.getElem?_cons_succ, List.getElem?_map]

end ReadOut

/-- Settles O46: the row of an address is its cell's, and the line of a row its text. -/
theorem readOutListsEveryAddress : Obligations.ReadOutListsEveryAddress := by
  intro s start stop le
  refine ⟨s.rowsOf start stop, readOut_eq_rowsOf le, length_rowsOf, ?_, rfl,
    fun a low high => ⟨fun lt => ?_, fun ge => ?_⟩⟩
  · rw [dumpLines, List.length_cons, List.length_map]
  · rw [getElem?_dumpLines_succ, getElem?_rowsOf low high, cellRow_of_lt lt]
    simp [dumpRow]
  · rw [getElem?_dumpLines_succ, getElem?_rowsOf low high, cellRow_of_le ge]
    simp [dumpRow]

end Sys2Proof.Machine
end

