-- ==== Sys2Proof/Proofs/SourceText.lean ====
section
/-!
The characters of source text (spec/30_encoding.md section 5, decisions D13 and D14): lines, blank lines and comments,
tokens, mnemonics and numeric literals.
-/

namespace Sys2Proof.Machine

/-! ### Mnemonics -/

/-- Settles O52: the four mnemonics are four different strings, so that the order of comparison does not matter. -/
theorem mnemonicsIgnoreCase : Obligations.MnemonicsIgnoreCase := by
  intro m k
  simp only [kindOfMnemonic]
  generalize m.map Char.toUpper = u
  by_cases load : u = "LOAD".toList
  · subst load; cases k <;> decide
  by_cases write : u = "WRITE".toList
  · subst write; cases k <;> decide
  by_cases read : u = "READ".toList
  · subst read; cases k <;> decide
  by_cases bitrev : u = "BITREV".toList
  · subst bitrev; cases k <;> decide
  rw [if_neg load, if_neg write, if_neg read, if_neg bitrev]
  cases k with
  | load => exact iff_of_false nofun load
  | write => exact iff_of_false nofun write
  | read => exact iff_of_false nofun read
  | bitrev => exact iff_of_false nofun bitrev

/-! ### Lines -/

/-- A newline ends the line being read, whatever follows. -/
theorem linesFrom_append_newline (cur first second : List Char) :
    linesFrom cur (first ++ '\n' :: second) = linesFrom cur first ++ sourceLines second := by
  induction first generalizing cur with
  | nil => simp [linesFrom, sourceLines]
  | cons c cs ih =>
    by_cases newline : c = '\n'
    · simp [linesFrom, newline, ih]
    · simp [linesFrom, newline, ih]

theorem sourceLines_append_newline (first second : List Char) :
    sourceLines (first ++ '\n' :: second) = sourceLines first ++ sourceLines second :=
  linesFrom_append_newline [] first second

theorem linesFrom_of_no_newline {line : List Char} (h : '\n' ∉ line) (cur : List Char) :
    linesFrom cur line = [cur.reverse ++ line] := by
  induction line generalizing cur with
  | nil => simp [linesFrom]
  | cons c cs ih =>
    rw [List.mem_cons, not_or] at h
    obtain ⟨ne, rest⟩ := h
    rw [linesFrom, if_neg (Ne.symm ne), ih rest, List.reverse_cons, List.append_assoc, List.singleton_append]

theorem image_append_newline (first second : List Char) :
    (assemble (first ++ '\n' :: second)).image = (assemble first).image ++ (assemble second).image := by
  simp only [image_assemble, sourceLines_append_newline, List.flatMap_append]

/-- A malformed line alone assembles to nothing (R72). -/
theorem image_of_malformed {line : List Char} (oneLine : '\n' ∉ line) (malformed : assembleLine line = .malformed) :
    (assemble line).image = [] := by
  rw [image_assemble, sourceLines, linesFrom_of_no_newline oneLine]
  simp [malformed, LineResult.bytes]

/-- Settles O59: the lines of the joined text are those of the first and then those of the second. -/
theorem textsAssembleOneAfterTheOther : Obligations.TextsAssembleOneAfterTheOther := by
  intro first second
  refine ⟨image_append_newline first second, fun line oneLine malformed => ?_⟩
  rw [image_append_newline, image_append_newline, image_of_malformed oneLine malformed, List.append_nil]

/-! ### Stripping -/

theorem stripLine_eq_rdropWhile (l : List Char) : stripLine l = (l.dropWhile isSpace).rdropWhile isSpace := rfl

/-- A line is its stripped self between whitespace. -/
theorem exists_stripLine_between (l : List Char) : ∃ lead trail : List Char, (∀ c ∈ lead, isSpace c = true) ∧
    (∀ c ∈ trail, isSpace c = true) ∧ l = lead ++ (stripLine l ++ trail) := by
  refine ⟨l.takeWhile isSpace, (l.dropWhile isSpace).rtakeWhile isSpace, fun c => List.mem_takeWhile_imp,
    fun c => List.mem_rtakeWhile_imp, ?_⟩
  rw [stripLine_eq_rdropWhile, List.rdropWhile_append_rtakeWhile, List.takeWhile_append_dropWhile]

theorem stripLine_eq_nil_iff (l : List Char) : stripLine l = [] ↔ ∀ c ∈ l, isSpace c = true := by
  constructor
  · intro empty
    obtain ⟨lead, trail, leadSpace, trailSpace, parts⟩ := exists_stripLine_between l
    rw [empty, List.nil_append] at parts
    rw [parts]
    exact List.forall_mem_append.2 ⟨leadSpace, trailSpace⟩
  · intro spaces
    rw [stripLine_eq_rdropWhile, List.dropWhile_eq_nil_iff.2 spaces, List.rdropWhile_nil]

/-- Stripping keeps the first character that is not whitespace. -/
theorem head?_stripLine {space rest : List Char} {c : Char} (spaces : ∀ x ∈ space, isSpace x = true)
    (visible : isSpace c = false) : (stripLine (space ++ c :: rest)).head? = some c := by
  have lead : (space ++ c :: rest).dropWhile isSpace = c :: rest := by
    rw [List.dropWhile_append, List.dropWhile_eq_nil_iff.2 spaces]
    simp [visible]
  rw [stripLine_eq_rdropWhile, lead, List.rdropWhile, List.reverse_cons, List.dropWhile_append]
  split <;> simp [visible]

/-- A line is a comment exactly when its first character that is not whitespace is a semicolon (R65). -/
theorem head?_stripLine_eq_semicolon_iff (l : List Char) : (stripLine l).head? = some ';' ↔
    ∃ space rest : List Char, (∀ c ∈ space, isSpace c = true) ∧ l = space ++ ';' :: rest := by
  constructor
  · intro first
    obtain ⟨lead, trail, leadSpace, -, parts⟩ := exists_stripLine_between l
    obtain ⟨rest, stripped⟩ := List.head?_eq_some_iff.1 first
    rw [stripped] at parts
    exact ⟨lead, rest ++ trail, leadSpace, parts⟩
  · rintro ⟨space, rest, spaces, rfl⟩
    exact head?_stripLine spaces (by decide)

/-! ### Tokens -/

theorem isSeparator_of_isSpace {c : Char} (h : isSpace c = true) : isSeparator c = true := by simp [isSeparator, h]

/-- Separators before a token are skipped. -/
theorem tokens_separators_append {gap : List Char} (separators : ∀ c ∈ gap, isSeparator c = true) (rest : List Char) :
    tokens (gap ++ rest) = tokens rest := by
  induction gap with
  | nil => rfl
  | cons c cs ih =>
    obtain ⟨first, others⟩ := List.forall_mem_cons.1 separators
    rw [← ih others]
    simp [tokens, tokensFrom, first]

/-- The characters of a token are collected, last first. -/
theorem tokensFrom_append_token {t : List Char} (visible : ∀ c ∈ t, isSeparator c = false) (cur rest : List Char) :
    tokensFrom cur (t ++ rest) = tokensFrom (t.reverse ++ cur) rest := by
  induction t generalizing cur with
  | nil => rfl
  | cons c cs ih =>
    obtain ⟨first, others⟩ := List.forall_mem_cons.1 visible
    simp [tokensFrom, first, ih others]

/-- A token ends at the gap after it, or at the end of the line. -/
theorem tokensFrom_separators_append {cur gap rest : List Char} (token : cur ≠ [])
    (separators : ∀ c ∈ gap, isSeparator c = true) (ends : gap ≠ [] ∨ rest = []) :
    tokensFrom cur (gap ++ rest) = cur.reverse :: tokens rest := by
  cases gap with
  | nil =>
    obtain rfl : rest = [] := ends.resolve_left fun h => h rfl
    simp [tokensFrom, tokens, token]
  | cons c cs =>
    obtain ⟨first, others⟩ := List.forall_mem_cons.1 separators
    have after : tokensFrom [] (cs ++ rest) = tokens rest := tokens_separators_append others rest
    simp [tokensFrom, first, token, after]

/-- A token and its gap at the head of a line. -/
theorem tokens_token_append {t gap rest : List Char} (token : t ≠ []) (visible : ∀ c ∈ t, isSeparator c = false)
    (separators : ∀ c ∈ gap, isSeparator c = true) (ends : gap ≠ [] ∨ rest = []) :
    tokens (t ++ (gap ++ rest)) = t :: tokens rest := by
  rw [tokens, tokensFrom_append_token visible, List.append_nil,
    tokensFrom_separators_append (by simpa using token) separators ends, List.reverse_reverse]

/-- Separators at the end of a line add no token. -/
theorem tokensFrom_append_separators {gap : List Char} (separators : ∀ c ∈ gap, isSeparator c = true)
    (cur l : List Char) : tokensFrom cur (l ++ gap) = tokensFrom cur l := by
  induction l generalizing cur with
  | nil =>
    by_cases token : cur = []
    · rw [token, List.nil_append, ← List.append_nil gap]
      exact tokens_separators_append separators []
    · rw [List.nil_append, ← List.append_nil gap, tokensFrom_separators_append token separators (.inr rfl)]
      simp [tokensFrom, tokens, token]
  | cons c cs ih => simp only [List.cons_append, tokensFrom, ih]

theorem tokens_of_separators {l : List Char} (separators : ∀ c ∈ l, isSeparator c = true) : tokens l = [] := by
  rw [← List.append_nil l, tokens_separators_append separators]
  rfl

/-- Tokens hold what was collected for them: at least one character, and no separator. -/
theorem mem_tokensFrom {cur l t : List Char} (collected : ∀ c ∈ cur, isSeparator c = false) (h : t ∈ tokensFrom cur l) :
    t ≠ [] ∧ ∀ c ∈ t, isSeparator c = false := by
  induction l generalizing cur with
  | nil =>
    by_cases empty : cur = []
    · simp [tokensFrom, empty] at h
    · obtain rfl : t = cur.reverse := by simpa [tokensFrom, empty] using h
      simpa [empty] using collected
  | cons c cs ih =>
    by_cases separator : isSeparator c = true
    · by_cases empty : cur = []
      · exact ih (cur := []) nofun (by simpa [tokensFrom, separator, empty] using h)
      · have token : t = cur.reverse ∨ t ∈ tokensFrom [] cs := by simpa [tokensFrom, separator, empty] using h
        obtain rfl | later := token
        · simpa [empty] using collected
        · exact ih (cur := []) nofun later
    · have visible : isSeparator c = false := Bool.eq_false_iff.2 separator
      exact ih (List.forall_mem_cons.2 ⟨visible, collected⟩) (by simpa [tokensFrom, visible] using h)

/-- A row of tokens, each with a gap that only the last may lack, is read back token by token. -/
theorem tokens_flatMap {parts : List (List Char × List Char)}
    (proper : ∀ p ∈ parts, p.1 ≠ [] ∧ (∀ c ∈ p.1, isSeparator c = false) ∧ ∀ c ∈ p.2, isSeparator c = true)
    (gaps : ∀ p ∈ parts.dropLast, p.2 ≠ []) :
    tokens (parts.flatMap fun p => p.1 ++ p.2) = parts.map fun p => p.1 := by
  induction parts with
  | nil => rfl
  | cons p ps ih =>
    obtain ⟨⟨token, visible, separators⟩, others⟩ := List.forall_mem_cons.1 proper
    have ends : p.2 ≠ [] ∨ (ps.flatMap fun p => p.1 ++ p.2) = [] := by
      cases ps with
      | nil => exact .inr rfl
      | cons q qs => exact .inl (gaps p (by simp))
    have laterGaps : ∀ q ∈ ps.dropLast, q.2 ≠ [] := by
      intro q mem
      refine gaps q ?_
      cases ps with
      | nil => cases mem
      | cons q' qs => simp [mem]
    rw [List.flatMap_cons, List.append_assoc, tokens_token_append token visible separators ends, ih others laterGaps,
      List.map_cons]

theorem tokens_stripLine (l : List Char) : tokens (stripLine l) = tokens l := by
  obtain ⟨lead, trail, leadSpace, trailSpace, parts⟩ := exists_stripLine_between l
  have whole := tokens_separators_append (fun c mem => isSeparator_of_isSpace (leadSpace c mem)) (stripLine l ++ trail)
  rw [← parts] at whole
  rw [whole]
  exact (tokensFrom_append_separators (fun c mem => isSeparator_of_isSpace (trailSpace c mem)) [] (stripLine l)).symm

/-- Settles O55: what a token holds, the row of tokens read back after the leading separators, and the stripped line. -/
theorem tokensAreFoundAgain : Obligations.TokensAreFoundAgain := by
  refine ⟨fun l t mem => mem_tokensFrom (cur := []) nofun mem, fun lead parts separators proper gaps => ?_,
    tokens_stripLine⟩
  rw [tokens_separators_append separators, tokens_flatMap proper gaps]

/-! ### Blank lines and comments -/

theorem parseTokens_ne_nothing (toks : List (List Char)) : parseTokens toks ≠ .nothing := by
  cases toks with
  | nil => nofun
  | cons m ops => obtain h | ⟨r, h⟩ := parseTokens_cases m ops <;> rw [h] <;> nofun

/-- A line yields nothing exactly when it is empty or a comment once stripped (R65). -/
theorem assembleLine_eq_nothing_iff (l : List Char) :
    assembleLine l = .nothing ↔ stripLine l = [] ∨ (stripLine l).head? = some ';' := by
  by_cases empty : stripLine l = []
  · simp [assembleLine, empty]
  · by_cases comment : (stripLine l).head? = some ';'
    · obtain ⟨rest, stripped⟩ := List.head?_eq_some_iff.1 comment
      simp [assembleLine, stripped]
    · rw [assembleLine_of_head empty comment]
      simp [parseTokens_ne_nothing, empty, comment]

/-- Settles O56: whitespace alone strips to nothing and a comment to its semicolon; a line of separators with a comma is
neither, and has no token. -/
theorem blankAndCommentLinesYieldNothing : Obligations.BlankAndCommentLinesYieldNothing := by
  constructor
  · intro l
    rw [assembleLine_eq_nothing_iff, stripLine_eq_nil_iff, head?_stripLine_eq_semicolon_iff]
  · intro l separators comma
    have notBlank : stripLine l ≠ [] := by
      rw [ne_eq, stripLine_eq_nil_iff]
      intro spaces
      exact absurd (spaces ',' comma) (by decide)
    have notComment : (stripLine l).head? ≠ some ';' := by
      rw [ne_eq, head?_stripLine_eq_semicolon_iff]
      rintro ⟨space, rest, -, rfl⟩
      exact absurd (separators ';' (by simp)) (by decide)
    rw [assembleLine_of_head notBlank notComment, tokens_stripLine, tokens_of_separators separators, parseTokens]

end Sys2Proof.Machine
end

