-- ==== Sys2Proof/Proofs/Literals.lean ====
section
/-!
Numeric literals (spec/30_encoding.md section 5, decision D13): which tokens are numeric, and the number each stands
for.
-/

namespace Sys2Proof.Machine

variable {base acc : Nat} {ds : List Char} {c p : Char}

/-- The characters that are digits of a base up to 10. -/
def IsDigitOf (base : Nat) (c : Char) : Prop := 48 ≤ c.toNat ∧ c.toNat < 48 + base

theorem digitValue_of_isDigitOf (h : IsDigitOf base c) : digitValue base c = some (c.toNat - 48) := if_pos h

theorem digitValue_of_not_isDigitOf (h : ¬IsDigitOf base c) : digitValue base c = none := if_neg h

/-- The value of a string of digits is the library's. -/
theorem digitsValue_of_digits (digits : ∀ c ∈ ds, IsDigitOf base c) :
    digitsValue base acc ds = some (Nat.ofDigitChars base ds acc) := by
  induction ds generalizing acc with
  | nil => rfl
  | cons c cs ih =>
    obtain ⟨first, others⟩ := List.forall_mem_cons.1 digits
    rw [digitsValue, digitValue_of_isDigitOf first, Nat.ofDigitChars_cons, Nat.mul_comm base acc]
    exact ih others

/-- A string has a value exactly when it is digits. -/
theorem digitsValue_ne_none_iff : digitsValue base acc ds ≠ none ↔ ∀ c ∈ ds, IsDigitOf base c := by
  refine ⟨fun numeric => ?_, fun digits => by rw [digitsValue_of_digits digits]; nofun⟩
  induction ds generalizing acc with
  | nil => nofun
  | cons c cs ih =>
    by_cases first : IsDigitOf base c
    · rw [digitsValue, digitValue_of_isDigitOf first] at numeric
      exact List.forall_mem_cons.2 ⟨first, ih numeric⟩
    · rw [digitsValue, digitValue_of_not_isDigitOf first] at numeric
      exact absurd rfl numeric

theorem numeralValue_ne_none_iff : numeralValue base ds ≠ none ↔ ds ≠ [] ∧ ∀ c ∈ ds, IsDigitOf base c := by
  rw [← digitsValue_ne_none_iff (acc := 0)]
  cases ds <;> simp [numeralValue]

theorem isDigitOf_ten_iff : IsDigitOf 10 c ↔ c.isDigit = true := by
  simp [IsDigitOf, Char.isDigit, UInt32.le_iff_toNat_le]
  omega

theorem isDigitOf_two_iff : IsDigitOf 2 c ↔ c = '0' ∨ c = '1' := by
  rw [← Char.toNat_inj, ← Char.toNat_inj]
  simp [IsDigitOf]
  omega

/-! ### The two forms of a literal -/

/-- The letter after the 0 of a base 2 literal. -/
def IsBaseTwoMark (p : Char) : Prop := p = 'b' ∨ p = 'B'

theorem literalValue_baseTwo (mark : IsBaseTwoMark p) : literalValue ('0' :: p :: ds) = numeralValue 2 ds := by
  obtain rfl | rfl := mark <;> rfl

theorem literalValue_baseTen (unmarked : ∀ p ds', IsBaseTwoMark p → ds ≠ '0' :: p :: ds') :
    literalValue ds = numeralValue 10 ds := by
  unfold literalValue
  split
  · next ds' => exact absurd rfl (unmarked 'b' ds' (.inl rfl))
  · next ds' => exact absurd rfl (unmarked 'B' ds' (.inr rfl))
  · rfl

/-- No decimal numeral has a base 2 mark, a letter, in it. -/
theorem not_isBaseTwoMark_of_isDigitOf (h : IsDigitOf 10 p) : ¬IsBaseTwoMark p := by
  rw [isDigitOf_ten_iff] at h
  rintro (rfl | rfl) <;> exact absurd h (by decide)

theorem ne_baseTwo_of_digits (digits : ∀ c ∈ ds, IsDigitOf 10 c) (p : Char) (ds' : List Char) (mark : IsBaseTwoMark p) :
    ds ≠ '0' :: p :: ds' := by
  rintro rfl
  exact not_isBaseTwoMark_of_isDigitOf (digits p (by simp)) mark

/-- The two forms of decision D13. -/
theorem literalValue_ne_none_iff (tok : List Char) : literalValue tok ≠ none ↔ (tok ≠ [] ∧ ∀ c ∈ tok, IsDigitOf 10 c) ∨
    ∃ p ds, IsBaseTwoMark p ∧ tok = '0' :: p :: ds ∧ ds ≠ [] ∧ ∀ c ∈ ds, IsDigitOf 2 c := by
  by_cases marked : ∃ p ds, IsBaseTwoMark p ∧ tok = '0' :: p :: ds
  · obtain ⟨p, ds, mark, rfl⟩ := marked
    rw [literalValue_baseTwo mark, numeralValue_ne_none_iff]
    constructor
    · intro binary
      exact .inr ⟨p, ds, mark, rfl, binary⟩
    · rintro (⟨-, digits⟩ | ⟨p', ds', -, same, binary⟩)
      · exact absurd rfl (ne_baseTwo_of_digits digits p ds mark)
      · cases same
        exact binary
  · have unmarked : ∀ p ds', IsBaseTwoMark p → tok ≠ '0' :: p :: ds' := fun p ds' mark same => marked ⟨p, ds', mark, same⟩
    rw [literalValue_baseTen unmarked, numeralValue_ne_none_iff]
    refine ⟨.inl, fun h => h.resolve_right ?_⟩
    rintro ⟨p, ds, mark, same, -⟩
    exact unmarked p ds mark same

/-! ### Numbers written and read back -/

/-- The characters of a written number are digits of its base. -/
theorem isDigitOf_of_mem_toDigits (one : 1 < base) (ten : base ≤ 10) (n : Nat) (h : c ∈ Nat.toDigits base n) :
    IsDigitOf base c := by
  induction n using Nat.strongRecOn with
  | ind n ih =>
    have digit : ∀ d, d < base → IsDigitOf base d.digitChar := fun d lt => by
      rw [IsDigitOf, Nat.toNat_digitChar_of_lt_ten (by omega)]
      omega
    rw [Nat.toDigits_eq_if one] at h
    split at h
    · next small =>
      rw [List.mem_singleton.1 h]
      exact digit n small
    · next large =>
      obtain leading | last := List.mem_append.1 h
      · exact ih (n / base) (Nat.div_lt_self (by omega) one) leading
      · rw [List.mem_singleton.1 last]
        exact digit (n % base) (Nat.mod_lt n (by omega))

/-- A number as it is written in a base, after leading zeros. -/
def writtenNumber (base zeros n : Nat) : List Char := List.replicate zeros '0' ++ Nat.toDigits base n

theorem isDigitOf_of_mem_writtenNumber (one : 1 < base) (ten : base ≤ 10) (zeros n : Nat) :
    ∀ c ∈ writtenNumber base zeros n, IsDigitOf base c := by
  intro c h
  obtain zero | digit := List.mem_append.1 h
  · rw [List.eq_of_mem_replicate zero]
    exact ⟨Nat.le_refl 48, Nat.lt_add_of_pos_right (by omega)⟩
  · exact isDigitOf_of_mem_toDigits one ten n digit

theorem writtenNumber_ne_nil (base zeros n : Nat) : writtenNumber base zeros n ≠ [] :=
  List.append_ne_nil_of_right_ne_nil _ Nat.toDigits_ne_nil

/-- A numeral has the value of its digits, to which leading zeros add nothing. -/
theorem numeralValue_writtenNumber (one : 1 < base) (ten : base ≤ 10) (zeros n : Nat) :
    numeralValue base (writtenNumber base zeros n) = some n := by
  rw [numeralValue, if_neg (by simp [writtenNumber_ne_nil]),
    digitsValue_of_digits (isDigitOf_of_mem_writtenNumber one ten zeros n), writtenNumber, Nat.ofDigitChars_append,
    Nat.ofDigitChars_replicate_zero, Nat.mul_zero, Nat.ofDigitChars_toDigits one ten]

/-- Settles O54: the two forms, and the value of a written number in either. -/
theorem literalsReadBack : Obligations.LiteralsReadBack := by
  refine ⟨fun tok => ?_, fun zeros n => ⟨?_, ?_, ?_⟩⟩
  · rw [literalValue_ne_none_iff]
    simp only [isDigitOf_ten_iff, isDigitOf_two_iff, IsBaseTwoMark]
  · have digits := isDigitOf_of_mem_writtenNumber (base := 10) (by decide) (by decide) zeros n
    exact (literalValue_baseTen (ne_baseTwo_of_digits digits)).trans
      (numeralValue_writtenNumber (by decide) (by decide) zeros n)
  · exact (literalValue_baseTwo (.inl rfl)).trans (numeralValue_writtenNumber (by decide) (by decide) zeros n)
  · exact (literalValue_baseTwo (.inr rfl)).trans (numeralValue_writtenNumber (by decide) (by decide) zeros n)

end Sys2Proof.Machine
end
